-- ==== Sys2Proof/Word.lean ====
section
/-! DEFINITION. The word of the block: every stored register and every data operand is 32 bits wide, bit 0 the least
significant (spec R7, R10). -/

namespace Sys2Proof

/-- A 32-bit register value or data operand (R7, R10). -/
abbrev Word := BitVec 32

end Sys2Proof
end

