-- ==== Sys2Proof/Config.lean ====
section
/-! DEFINITION. What is fixed for a port at construction or by the source (spec R6). No value of the spec is left open
after an operation, so there is no free value here. -/

namespace Sys2Proof

/-- The port identity, "A, B, or other" (R6, D21): no rule reads it (R182). -/
inductive Identity where
  | a
  | b
  | other
deriving DecidableEq, Repr

namespace Config

/-- The largest pin count N (R6, D20). -/
def maxPins : Nat := 16

/-- The pin count of a port that is constructed without naming one: "default 16" (R6). -/
def defaultPins : Nat := 16

/-- The register window's size in bytes (R6, R40). -/
def windowBytes : Nat := 0x400

/-- The one access width that has a meaning, in bytes (R6, R42). -/
def accessWidth : Nat := 4

end Config

end Sys2Proof
end

