-- ==== Sys2Proof/Syntax.lean ====
section
/-! DEFINITION. The operations of the block as terms: one constructor of `Instr` for each row of
spec/opcode_table.json, with the operands that travel beside the selector (spec R60, R61, R67). -/

namespace Sys2Proof

/-- The snapshot, "fixed field order": eleven 32-bit words `f0` to `f10` (R66, R145, D12). -/
structure Snapshot where
  f0 : Word
  f1 : Word
  f2 : Word
  f3 : Word
  f4 : Word
  f5 : Word
  f6 : Word
  f7 : Word
  f8 : Word
  f9 : Word
  f10 : Word
deriving DecidableEq, Repr

/-- A byte offset in the register window, `0x000` to `0x3FF` (R40, R60). -/
abbrev Offset := BitVec 10

/-- The pin operand of a line event, `0` to `15`, legal below N (R60). -/
abbrev PinOperand := BitVec 4

/-- The three line values (R62, R140): "a three-valued enumeration {DriveLow, DriveHigh, Release}". -/
inductive LineValue where
  | driveLow
  | driveHigh
  | release
deriving DecidableEq, Repr

/-- The 28 operations of spec/opcode_table.json. -/
inductive Instr where
  /-- RD_MODER (R81) -/
  | rdModer
  /-- RD_OTYPER (R82) -/
  | rdOtyper
  /-- RD_OSPEEDR (R83) -/
  | rdOspeedr
  /-- RD_PUPDR (R84) -/
  | rdPupdr
  /-- RD_IDR (R85) -/
  | rdIdr
  /-- RD_ODR (R86) -/
  | rdOdr
  /-- RD_BSRR (R87) -/
  | rdBsrr
  /-- RD_LCKR (R88) -/
  | rdLckr
  /-- RD_AFRL (R89) -/
  | rdAfrl
  /-- RD_AFRH (R90) -/
  | rdAfrh
  /-- RD_UNKNOWN (R91): `offset` is none of the ten defined offsets -/
  | rdUnknown (offset : Offset)
  /-- WR_MODER (R93) -/
  | wrModer (value : Word)
  /-- WR_OTYPER (R94) -/
  | wrOtyper (value : Word)
  /-- WR_OSPEEDR (R95) -/
  | wrOspeedr (value : Word)
  /-- WR_PUPDR (R96) -/
  | wrPupdr (value : Word)
  /-- WR_IDR (R97) -/
  | wrIdr (value : Word)
  /-- WR_ODR (R98) -/
  | wrOdr (value : Word)
  /-- WR_BSRR (R99) -/
  | wrBsrr (value : Word)
  /-- WR_LCKR (R100) -/
  | wrLckr (value : Word)
  /-- WR_AFRL (R101) -/
  | wrAfrl (value : Word)
  /-- WR_AFRH (R102) -/
  | wrAfrh (value : Word)
  /-- WR_UNKNOWN (R103): `offset` is none of the ten defined offsets -/
  | wrUnknown (offset : Offset) (value : Word)
  /-- LINE_LOW (R136) -/
  | lineLow (pin : PinOperand)
  /-- LINE_HIGH (R137) -/
  | lineHigh (pin : PinOperand)
  /-- LINE_RELEASE (R138) -/
  | lineRelease (pin : PinOperand)
  /-- RESET (R180) -/
  | reset
  /-- SAVE (R146) -/
  | save
  /-- RESTORE (R147) -/
  | restore (snapshot : Snapshot)
deriving DecidableEq, Repr

end Sys2Proof
end

