-- ==== Sys2Proof/WellFormed.lean ====
section
/-! DEFINITION. Which terms stand for an operation of the table: the unknown-offset rows hold only offsets outside the
defined map (spec R91, R103). Every other operand is legal at every value of its type as far as the instruction goes; that a
line event's pin is below N is a matter of the port, and is checked when it is executed (R139). -/

namespace Sys2Proof

/-- The ten defined offsets, as R91 lists them. -/
def definedOffsets : List Offset :=
  [0x000#10, 0x004#10, 0x008#10, 0x00C#10, 0x010#10, 0x014#10, 0x018#10, 0x01C#10, 0x020#10, 0x024#10]

/-- An unknown-offset operation names no defined offset. -/
def wellFormed : Instr → Bool
  | .rdUnknown off => !definedOffsets.contains off
  | .wrUnknown off _ => !definedOffsets.contains off
  | _ => true

/-- `i` stands for an operation of the table. -/
abbrev WellFormed (i : Instr) : Prop := wellFormed i = true

end Sys2Proof
end

