-- ==== Sys2Proof/Decode.lean ====
section
/-! DEFINITION. Decoding an operation's packet and encoding an instruction (spec R61, R66, R67, R68).
A packet is the selector in the low 12 bits of its first 32-bit word, then the data words that travel beside it: one for a
bus write, eleven for RESTORE, none otherwise. The selector's fields are R61's; the packet is the model's own layout
(DESIGN CHOICE, safe, log 5). -/

namespace Sys2Proof

/-- Why a packet stands for no operation. -/
inductive DecodeError where
  /-- There is no first word. -/
  | noSelector
  /-- The first word has a bit above the selector's twelve. -/
  | selectorTooWide (word : Word)
  /-- A line event with `lvl = 3` or `sel[9:6] != 0` (R68). -/
  | reservedLine (sel : BitVec 12)
  /-- A system operation with `sysop = 3` or `sel[9:2] != 0` (R68). -/
  | reservedSystem (sel : BitVec 12)
  /-- The number of data words is not the one the operation takes (R60). -/
  | dataCount (sel : BitVec 12)
deriving DecidableEq, Repr

/-- The names of the ten defined offsets (R41). -/
inductive RegName where
  | moder
  | otyper
  | ospeedr
  | pupdr
  | idr
  | odr
  | bsrr
  | lckr
  | afrl
  | afrh
deriving DecidableEq, Repr

/-- The register map (R41). -/
def offsetOf : RegName → Offset
  | .moder => 0x000#10
  | .otyper => 0x004#10
  | .ospeedr => 0x008#10
  | .pupdr => 0x00C#10
  | .idr => 0x010#10
  | .odr => 0x014#10
  | .bsrr => 0x018#10
  | .lckr => 0x01C#10
  | .afrl => 0x020#10
  | .afrh => 0x024#10

/-- The register whose offset matches exactly, if there is one (R67 (2)); a misaligned offset matches none (R43, D8: DESIGN
CHOICE of the spec, unsafe if the dispatch layer split such accesses, log 12). -/
def registerAt (off : Offset) : Option RegName :=
  if off = 0x000#10 then some .moder
  else if off = 0x004#10 then some .otyper
  else if off = 0x008#10 then some .ospeedr
  else if off = 0x00C#10 then some .pupdr
  else if off = 0x010#10 then some .idr
  else if off = 0x014#10 then some .odr
  else if off = 0x018#10 then some .bsrr
  else if off = 0x01C#10 then some .lckr
  else if off = 0x020#10 then some .afrl
  else if off = 0x024#10 then some .afrh
  else none

/-- The read row a class 0 selector chooses (R67). -/
def readAt (off : Offset) : Instr :=
  match registerAt off with
  | some .moder => .rdModer
  | some .otyper => .rdOtyper
  | some .ospeedr => .rdOspeedr
  | some .pupdr => .rdPupdr
  | some .idr => .rdIdr
  | some .odr => .rdOdr
  | some .bsrr => .rdBsrr
  | some .lckr => .rdLckr
  | some .afrl => .rdAfrl
  | some .afrh => .rdAfrh
  | none => .rdUnknown off

/-- The write row a class 1 selector chooses (R67). -/
def writeAt (off : Offset) (v : Word) : Instr :=
  match registerAt off with
  | some .moder => .wrModer v
  | some .otyper => .wrOtyper v
  | some .ospeedr => .wrOspeedr v
  | some .pupdr => .wrPupdr v
  | some .idr => .wrIdr v
  | some .odr => .wrOdr v
  | some .bsrr => .wrBsrr v
  | some .lckr => .wrLckr v
  | some .afrl => .wrAfrl v
  | some .afrh => .wrAfrh v
  | none => .wrUnknown off v

/-- `sel[11:10]` (R61). -/
def selClass (sel : BitVec 12) : BitVec 2 := sel.extractLsb' 10 2

/-- `sel[9:0]`, the offset of a bus access (R61). -/
def selOffset (sel : BitVec 12) : Offset := sel.extractLsb' 0 10

/-- `sel[3:0]`, the pin of a line event (R61). -/
def selPin (sel : BitVec 12) : PinOperand := sel.extractLsb' 0 4

/-- An operation that takes no data word. -/
def withoutData (sel : BitVec 12) (i : Instr) : List Word → Except DecodeError Instr
  | [] => .ok i
  | _ :: _ => .error (.dataCount sel)

/-- An operation that takes one data word. -/
def withWord (sel : BitVec 12) (f : Word → Instr) : List Word → Except DecodeError Instr
  | [v] => .ok (f v)
  | _ => .error (.dataCount sel)

/-- The snapshot's words in their order (R145). -/
def snapshotWords (f : Snapshot) : List Word :=
  [f.f0, f.f1, f.f2, f.f3, f.f4, f.f5, f.f6, f.f7, f.f8, f.f9, f.f10]

/-- RESTORE takes the eleven words of a snapshot (R66, R147). -/
def withSnapshot (sel : BitVec 12) : List Word → Except DecodeError Instr
  | [f0, f1, f2, f3, f4, f5, f6, f7, f8, f9, f10] => .ok (.restore ⟨f0, f1, f2, f3, f4, f5, f6, f7, f8, f9, f10⟩)
  | _ => .error (.dataCount sel)

/-- A class 2 selector: `sel[9:6]` is zero and `lvl` chooses the line event (R61, R67 (3)). -/
def decodeLine (sel : BitVec 12) (data : List Word) : Except DecodeError Instr :=
  if sel.extractLsb' 6 4 ≠ 0#4 then .error (.reservedLine sel)
  else if sel.extractLsb' 4 2 = 0#2 then withoutData sel (.lineLow (selPin sel)) data
  else if sel.extractLsb' 4 2 = 1#2 then withoutData sel (.lineHigh (selPin sel)) data
  else if sel.extractLsb' 4 2 = 2#2 then withoutData sel (.lineRelease (selPin sel)) data
  else .error (.reservedLine sel)

/-- A class 3 selector: `sel[9:2]` is zero and `sysop` chooses the operation (R61, R67 (4)). -/
def decodeSystem (sel : BitVec 12) (data : List Word) : Except DecodeError Instr :=
  if sel.extractLsb' 2 8 ≠ 0#8 then .error (.reservedSystem sel)
  else if sel.extractLsb' 0 2 = 0#2 then withoutData sel .reset data
  else if sel.extractLsb' 0 2 = 1#2 then withoutData sel .save data
  else if sel.extractLsb' 0 2 = 2#2 then withSnapshot sel data
  else .error (.reservedSystem sel)

/-- The operation a 12-bit selector and its data words choose (R67 (1)). -/
def decodeSelector (sel : BitVec 12) (data : List Word) : Except DecodeError Instr :=
  if selClass sel = 0#2 then withoutData sel (readAt (selOffset sel)) data
  else if selClass sel = 1#2 then withWord sel (writeAt (selOffset sel)) data
  else if selClass sel = 2#2 then decodeLine sel data
  else decodeSystem sel data

/-- The operation a packet stands for, or why it stands for none (R67, R68). -/
def decode : List Word → Except DecodeError Instr
  | [] => .error .noSelector
  | w :: data =>
    if w.extractLsb' 12 20 ≠ 0#20 then .error (.selectorTooWide w)
    else decodeSelector (w.setWidth 12) data

/-- The selector of a bus read (R61). -/
def readSel (off : Offset) : BitVec 12 := 0#2 ++ off

/-- The selector of a bus write (R61). -/
def writeSel (off : Offset) : BitVec 12 := 1#2 ++ off

/-- The code of a line value in `sel[5:4]` (R62, D18). -/
def lineCode : LineValue → BitVec 2
  | .driveLow => 0#2
  | .driveHigh => 1#2
  | .release => 2#2

/-- The selector of a line event (R61). -/
def lineSel (v : LineValue) (p : PinOperand) : BitVec 12 := 2#2 ++ 0#4 ++ lineCode v ++ p

/-- A packet: the selector in the low bits of the first word, then the data words. -/
def packet (sel : BitVec 12) (data : List Word) : List Word := sel.setWidth 32 :: data

/-- The packet of an instruction (R61; one line for each row of R67's table). -/
def encode : Instr → List Word
  | .rdModer => packet (readSel (offsetOf .moder)) []
  | .rdOtyper => packet (readSel (offsetOf .otyper)) []
  | .rdOspeedr => packet (readSel (offsetOf .ospeedr)) []
  | .rdPupdr => packet (readSel (offsetOf .pupdr)) []
  | .rdIdr => packet (readSel (offsetOf .idr)) []
  | .rdOdr => packet (readSel (offsetOf .odr)) []
  | .rdBsrr => packet (readSel (offsetOf .bsrr)) []
  | .rdLckr => packet (readSel (offsetOf .lckr)) []
  | .rdAfrl => packet (readSel (offsetOf .afrl)) []
  | .rdAfrh => packet (readSel (offsetOf .afrh)) []
  | .rdUnknown off => packet (readSel off) []
  | .wrModer v => packet (writeSel (offsetOf .moder)) [v]
  | .wrOtyper v => packet (writeSel (offsetOf .otyper)) [v]
  | .wrOspeedr v => packet (writeSel (offsetOf .ospeedr)) [v]
  | .wrPupdr v => packet (writeSel (offsetOf .pupdr)) [v]
  | .wrIdr v => packet (writeSel (offsetOf .idr)) [v]
  | .wrOdr v => packet (writeSel (offsetOf .odr)) [v]
  | .wrBsrr v => packet (writeSel (offsetOf .bsrr)) [v]
  | .wrLckr v => packet (writeSel (offsetOf .lckr)) [v]
  | .wrAfrl v => packet (writeSel (offsetOf .afrl)) [v]
  | .wrAfrh v => packet (writeSel (offsetOf .afrh)) [v]
  | .wrUnknown off v => packet (writeSel off) [v]
  | .lineLow p => packet (lineSel .driveLow p) []
  | .lineHigh p => packet (lineSel .driveHigh p) []
  | .lineRelease p => packet (lineSel .release p) []
  | .reset => packet 0xC00#12 []
  | .save => packet 0xC01#12 []
  | .restore f => packet 0xC02#12 (snapshotWords f)

/-- How many data words travel beside a selector (R60): one for a bus write, eleven for RESTORE. -/
def dataWords (sel : BitVec 12) : Nat :=
  if selClass sel = 1#2 then 1 else if sel = 0xC02#12 then 11 else 0

/-- The 32-bit words of a number, the first at its least significant end. -/
def wordsOf : Nat → Nat → List Word
  | 0, _ => []
  | k + 1, w => BitVec.ofNat 32 w :: wordsOf k (w / 2 ^ 32)

/-- The packet whose bits are `w`, numbered as spec/opcode_table.json numbers them: the selector is the table's twelve bits,
and every bit the table does not give the row is zero. -/
def tablePacket (nbits w : Nat) : List Word :=
  wordsOf (dataWords (BitVec.ofNat 12 w) + 1) (w % 2 ^ nbits)

/-- What the decoder reads from an operation whose bits are `w`. -/
def decodeTableWord (nbits w : Nat) : Option Instr :=
  match decode (tablePacket nbits w) with
  | .ok i => some i
  | .error _ => none

end Sys2Proof
end

