-- ==== Sys2Proof/Machine/State.lean ====
section
/-! DEFINITION. The state of one port as plain data: the eleven items of spec R10, the two parameters of the port (R6, R27),
and the model's own three fields (what the environment has yet to deliver, and what the latest operation put out). -/

namespace Sys2Proof.Machine

/-- A diagnostic (R155; its name and payload are D15: DESIGN CHOICE of the spec, safe, log 18). -/
inductive Diag where
  /-- `Diag.BadOffset(read, offset)` (R156) -/
  | badOffsetRead (offset : Offset)
  /-- `Diag.BadOffset(write, offset, value)` (R156) -/
  | badOffsetWrite (offset : Offset) (value : Word)
  /-- `Diag.DriveConflict(pin)`, "pin short-circuited" (R157) -/
  | driveConflict (pin : Nat)
deriving DecidableEq, Repr

/-- An output of the block other than a return value (R5). -/
inductive Event where
  /-- `Edge(pin, level)`, the call `onOutputEdge(pin, level)` (R125) -/
  | edge (pin : Nat) (level : Bool)
  /-- a diagnostic to the diagnostic sink (R5, R155) -/
  | diag (d : Diag)
deriving DecidableEq, Repr

/-- What an operation returns (R60, "Result out"). -/
inductive Result where
  /-- `write`, `setLine`, `reset`, `restore` return nothing -/
  | noValue
  /-- `read` returns one 32-bit value -/
  | value (v : Word)
  /-- `save` returns the eleven words -/
  | snapshot (f : Snapshot)
deriving DecidableEq, Repr

/-- An operation as the environment invokes it (R4, R7, R9, R60). -/
inductive Request where
  /-- an operation given by its selector and the data words beside it (R61) -/
  | words (ws : List Word)
  /-- `MemRead(addr, n)`: a bus read of `n` bytes at byte offset `addr` (R7) -/
  | memRead (addr n : Nat)
  /-- `MemWrite(addr, n, v)`: a bus write of `n` bytes at byte offset `addr` (R7) -/
  | memWrite (addr n : Nat) (v : Word)
  /-- `setLine(pin_index, value)` (R135) -/
  | setLine (pin : Int) (value : LineValue)
  /-- `setLine` in the original signed-integer form (R140) -/
  | setLevel (pin : Int) (level : Int)
  /-- the explicit reset request (R4) -/
  | reset
  /-- the snapshot mechanism's `save` (R4) -/
  | save
  /-- the snapshot mechanism's `restore` (R4) -/
  | restore (f : Snapshot)
deriving DecidableEq, Repr

/-- The whole state of one port: "nine stored 32-bit registers … and two `N`-bit override vectors" (R10).
The vectors are held in 16 bits, of which bits `[15:N]` are zero (DESIGN CHOICE, safe, log 3). -/
structure Port where
  moder : Word
  otyper : Word
  ospeedr : Word
  pupdr : Word
  idr : Word
  odr : Word
  lckr : Word
  afrl : Word
  afrh : Word
  ovrEn : BitVec 16
  ovrVal : BitVec 16
deriving DecidableEq, Repr

/-- One port, its parameters, and its two sides toward the environment (log 1, log 2, log 4). -/
structure State where
  /-- N, the pin count (R6, R27): fixed for the life of the port -/
  pinCount : Nat
  /-- ID, the port identity (R6, R27): fixed, and read by no rule (R182) -/
  identity : Identity
  /-- the eleven state items (R10) -/
  port : Port
  /-- the operations the environment has yet to deliver, oldest first (R4, R53; log 1) -/
  pending : List Request
  /-- the event trace of the latest operation, in order (R5; log 4) -/
  events : List Event
  /-- what the latest operation returned (R60; log 4) -/
  result : Result
deriving DecidableEq, Repr

/-- The reasons the machine can stop with a fault. There are none: "All failures in this component are non-fatal and
diagnostic-only" (R155), and the one contract violation has no defined state, so it is a refusal (R159). Safe. -/
inductive Fault where
deriving DecidableEq, Repr

/-- The reasons a step has no meaning. -/
inductive Refusal where
  /-- Raised by no arm: every instruction has its meaning. Safe. -/
  | notModelled (mnemonic : String)
  /-- Raised by `step` when the environment has invoked no operation: the block has no step of its own (R4). Safe. -/
  | noOperation
  /-- Raised by `step` on a packet that is no operation: a reserved selector (R68) or a wrong number of data words. Safe. -/
  | notAnOperation (why : DecodeError)
  /-- Raised by `step` on a bus access of a width other than 4 bytes (R42, D7). Safe. -/
  | accessWidth (bytes : Nat)
  /-- Raised by `step` on a bus access outside the window (R45, D9). Safe. -/
  | outsideWindow (addr : Nat)
  /-- ConfigurationError: raised by LINE_LOW, LINE_HIGH and LINE_RELEASE on a pin at or above N, and by `step` on a pin
  outside `0..15` (R139, R159, D10). Safe. -/
  | configurationError (pin : Int)
  /-- Raised by `step` on a positive level other than 1 in the signed-integer form: "not described" (R140, N15). Safe. -/
  | lineLevel (level : Int)
  /-- Raised by `construct` on a pin count outside `1..16` (R6, D20). Safe. -/
  | pinCount (n : Nat)
deriving DecidableEq, Repr

/-- The state items after reset: "**every** register ends at zero" (R180). -/
def Port.zero : Port where
  moder := 0
  otyper := 0
  ospeedr := 0
  pupdr := 0
  idr := 0
  odr := 0
  lckr := 0
  afrl := 0
  afrh := 0
  ovrEn := 0
  ovrVal := 0

/-- A port of `n` pins right after construction (R183). -/
def State.constructed (id : Identity) (n : Nat) : State where
  pinCount := n
  identity := id
  port := Port.zero
  pending := []
  events := []
  result := .noValue

/-- The machine right after reset: all eleven items zero (R180), the default pin count (R6), identity A (DESIGN CHOICE,
unsafe only for a claim that names it: no rule reads it, R182; log 2). -/
def State.reset : State := State.constructed .a Config.defaultPins

end Sys2Proof.Machine
end

