-- ==== Sys2Proof/Machine/Operands.lean ====
section
/-! DEFINITION. Operand forms: per-pin fields (spec R63), their named values (R64), the two halves of BSRR's data (R65), and
the bit writes the rules use (R7). -/

namespace Sys2Proof.Machine

/-- `f2(r, i) = r[2i+1:2i]` (R63). -/
def f2 (r : Word) (i : Nat) : BitVec 2 := r.extractLsb' (2 * i) 2

/-- `f1(r, i) = r[i]` (R63). -/
def f1 (r : Word) (i : Nat) : Bool := r.getLsbD i

/-- `v[i] <- b` (R7): bit `i` replaced, the others unchanged. -/
def setBit {w : Nat} (v : BitVec w) (i : Nat) (b : Bool) : BitVec w :=
  if b then v ||| BitVec.twoPow w i else v &&& ~~~BitVec.twoPow w i

/-- The pin modes (R11, R64). -/
inductive PinMode where
  | input
  | output
  | alternateFunction
  | analog
deriving DecidableEq, Repr

/-- The mode a 2-bit field names: "Input(0) / Output(1) / AlternateFunction(2) / Analog(3)" (R64). -/
def modeOf (f : BitVec 2) : PinMode :=
  if f = 0#2 then .input else if f = 1#2 then .output else if f = 2#2 then .alternateFunction else .analog

/-- The pull configurations (R14, R64); the field's value 3 has no name and resolves as no pull (R114). -/
inductive Pull where
  | noPull
  | up
  | down
  | unnamed
deriving DecidableEq, Repr

/-- The pull configuration a 2-bit field names: "None(0) / Up(1) / Down(2)" (R64). -/
def pullOf (f : BitVec 2) : Pull :=
  if f = 0#2 then .noPull else if f = 1#2 then .up else if f = 2#2 then .down else .unnamed

/-- `BSRR_MASK` (R65, D3: DESIGN CHOICE of the spec, unsafe for N < 16 in ODR bits `[15:N]` alone, log 9). -/
def bsrrMask : Word := 0x0000FFFF#32

/-- The "drive high" requests of BSRR data (R65). -/
def bsrrSet (v : Word) : Word := v &&& bsrrMask

/-- The "drive low" requests of BSRR data (R65); the shift is logical (R104). -/
def bsrrClr (v : Word) : Word := (v >>> 16) &&& bsrrMask

/-- The ODR value a BSRR write leaves (R99): "set" wins where both are requested. -/
def bsrrUpdate (odr v : Word) : Word := (odr &&& ~~~bsrrClr v) ||| bsrrSet v

/-- The data of the pseudo-operation `SETPIN k` (R71). -/
def setPinData (k : PinOperand) : Word := 1#32 <<< k.toNat

/-- The data of the pseudo-operation `CLRPIN k` (R71). -/
def clrPinData (k : PinOperand) : Word := 1#32 <<< (16 + k.toNat)

/-- `SETPIN k` is one write to BSRR (R71). -/
def setPin (k : PinOperand) : Instr := .wrBsrr (setPinData k)

/-- `CLRPIN k` is one write to BSRR (R71). -/
def clrPin (k : PinOperand) : Instr := .wrBsrr (clrPinData k)

/-- `NOPW` is one write of zero to BSRR (R71). -/
def nopw : Instr := .wrBsrr 0#32

/-- The low `n` bits: a mask word's `[N-1:0]` (R147, D13). -/
def lowBits (n : Nat) (f : Word) : BitVec 16 := (f &&& BitVec.ofNat 32 (2 ^ n - 1)).setWidth 16

end Sys2Proof.Machine
end

