-- ==== Sys2Proof/Machine/Flags.lean ====
section
/-! DEFINITION. The block has no flags (spec R25). What an operation computes beside its register is, for each pin, the
resolved level (R115), the conflict condition (R112) and the edge condition (R117). -/

namespace Sys2Proof.Machine

/-- The level function: override, then Output's requested level, then the pull (R113, R115). It is total (R121). -/
def level (mode : PinMode) (pull : Pull) (requested overridden ovalue : Bool) : Bool :=
  if overridden then ovalue
  else match mode with
    | .output => requested
    | .input => decide (pull = .up)
    | .alternateFunction => decide (pull = .up)
    | .analog => decide (pull = .up)

/-- Step 2's condition: an Output pin is overridden (R112). -/
def conflicts (mode : PinMode) (overridden : Bool) : Bool := decide (mode = .output) && overridden

/-- Step 5's condition: an Output pin's level differs from the one before (R117). -/
def edges (mode : PinMode) (resolved previous : Bool) : Bool := decide (mode = .output) && (resolved != previous)

/-- Pin `i`'s mode (R111). -/
def pinMode (p : Port) (i : Nat) : PinMode := modeOf (f2 p.moder i)

/-- Pin `i`'s pull configuration (R111). -/
def pinPull (p : Port) (i : Nat) : Pull := pullOf (f2 p.pupdr i)

/-- The level pin `i` resolves to (R110 steps 1 and 3). -/
def pinLevel (p : Port) (i : Nat) : Bool :=
  level (pinMode p i) (pinPull p i) (f1 p.odr i) (p.ovrEn.getLsbD i) (p.ovrVal.getLsbD i)

/-- Pin `i`'s conflict diagnostic, if any (R110 step 2). -/
def pinConflict (p : Port) (i : Nat) : List Event :=
  if conflicts (pinMode p i) (p.ovrEn.getLsbD i) then [.diag (.driveConflict i)] else []

/-- Pin `i`'s output edge, if any (R110 step 5): `previous` is the stored IDR bit (R28). -/
def pinEdge (p : Port) (i : Nat) : List Event :=
  if edges (pinMode p i) (pinLevel p i) (f1 p.idr i) then [.edge i (pinLevel p i)] else []

/-- Pin `i`'s events in a pass: the conflict before the edge (R117). -/
def pinEvents (p : Port) (i : Nat) : List Event := pinConflict p i ++ pinEdge p i

end Sys2Proof.Machine
end

