-- ==== Sys2Proof/Machine/Ops.lean ====
section
/-! DEFINITION. The shared operations: the resolution pass (spec R110), ending an operation, raising a diagnostic (R7, R158:
it transfers no control, so there is nothing to return from, R164, R165), and the shapes the register file (R80, R92) and the
line adapter (R135) share. -/

namespace Sys2Proof.Machine

/-- One pin's turn in the pass (R110): its events, and IDR bit `i` written back. -/
def resolvePin (i : Nat) (p : Port) : Port × List Event :=
  ({ p with idr := setBit p.idr i (pinLevel p i) }, pinEvents p i)

/-- The pins of a list, one after the other. -/
def resolvePins : List Nat → Port → Port × List Event
  | [], p => (p, [])
  | i :: is, p =>
    let r := resolvePin i p
    let rs := resolvePins is r.1
    (rs.1, r.2 ++ rs.2)

/-- `resolve_pass()` (R110): pins `0` to `n - 1` in ascending order (D4: DESIGN CHOICE of the
spec, unsafe for claims about the order of events across pins, log 10). -/
def resolvePass (n : Nat) (p : Port) : Port × List Event := resolvePins (List.range n) p

/-- An operation runs to its end (R51): the port it leaves, its event trace and what it returns. -/
def complete (s : State) (p : Port) (es : List Event) (r : Result) : Host.Outcome State Fault Refusal :=
  .next { s with port := p, events := es, result := r }

/-- `raise`: append a diagnostic to the operation's trace (R7). -/
def raiseDiag (d : Diag) (es : List Event) : List Event := es ++ [.diag d]

/-- A read of a defined offset (R80): it returns a word, changes nothing and emits nothing. -/
def completeRead (s : State) (v : Word) : Host.Outcome State Fault Refusal :=
  complete s s.port [] (.value v)

/-- A trigger (R119): the port as updated, then one resolution pass. -/
def completeTrigger (s : State) (p : Port) : Host.Outcome State Fault Refusal :=
  let r := resolvePass s.pinCount p
  complete s r.1 r.2 .noValue

/-- A line event on pin `p` (R135): the override bits updated, then one pass; a pin at or above N is refused (R139). -/
def lineEvent (s : State) (p : PinOperand) (updated : Port) : Host.Outcome State Fault Refusal :=
  if p.toNat < s.pinCount then completeTrigger s updated
  else .refused (.configurationError p.toNat)

/-- The override bits of a pin that is driven to `b` (R136, R137). -/
def drive (p : Port) (i : Nat) (b : Bool) : Port :=
  { p with ovrEn := setBit p.ovrEn i true, ovrVal := setBit p.ovrVal i b }

/-- The override bits of a pin that is released: `ovr_val` keeps its value (R138, D11: DESIGN CHOICE of the spec, unsafe
for snapshot field `f10` alone, log 14). -/
def release (p : Port) (i : Nat) : Port :=
  { p with ovrEn := setBit p.ovrEn i false }

/-- The snapshot of a port (R145, R146). -/
def snapshotOf (p : Port) : Snapshot where
  f0 := p.moder
  f1 := p.otyper
  f2 := p.ospeedr
  f3 := p.pupdr
  f4 := p.idr
  f5 := p.odr
  f6 := p.lckr
  f7 := p.afrl
  f8 := p.afrh
  f9 := p.ovrEn.setWidth 32
  f10 := p.ovrVal.setWidth 32

/-- The port a snapshot gives on a port of `n` pins (R147): bits `[31:n]` of `f9` and `f10` are ignored (D13:
DESIGN CHOICE of the spec, unsafe for hand-made snapshots alone, log 15). -/
def portOf (n : Nat) (f : Snapshot) : Port where
  moder := f.f0
  otyper := f.f1
  ospeedr := f.f2
  pupdr := f.f3
  idr := f.f4
  odr := f.f5
  lckr := f.f6
  afrl := f.f7
  afrh := f.f8
  ovrEn := lowBits n f.f9
  ovrVal := lowBits n f.f10

end Sys2Proof.Machine
end

