-- ==== Sys2Proof/Machine/Line.lean ====
section
/-! DEFINITION. ExternalLineAdapter, the three line events (spec R135 to R139). -/

namespace Sys2Proof.Machine

/-- LINE_LOW: `ovr_en[p] <- 1; ovr_val[p] <- 0; resolve_pass()` (R136). -/
def execLineLow (p : PinOperand) (s : State) : Host.Outcome State Fault Refusal :=
  lineEvent s p (drive s.port p.toNat false)

/-- LINE_HIGH: `ovr_en[p] <- 1; ovr_val[p] <- 1; resolve_pass()` (R137). -/
def execLineHigh (p : PinOperand) (s : State) : Host.Outcome State Fault Refusal :=
  lineEvent s p (drive s.port p.toNat true)

/-- LINE_RELEASE: `ovr_en[p] <- 0; resolve_pass()` (R138). -/
def execLineRelease (p : PinOperand) (s : State) : Host.Outcome State Fault Refusal :=
  lineEvent s p (release s.port p.toNat)

end Sys2Proof.Machine
end

