-- ==== Sys2Proof/Machine/RegisterRead.lean ====
section
/-! DEFINITION. RegisterFile, every read (spec R80 to R91). -/

namespace Sys2Proof.Machine

/-- RD_MODER: `return reg.MODER` (R81). -/
def execRdModer (s : State) : Host.Outcome State Fault Refusal := completeRead s s.port.moder

/-- RD_OTYPER: `return reg.OTYPER` (R82). -/
def execRdOtyper (s : State) : Host.Outcome State Fault Refusal := completeRead s s.port.otyper

/-- RD_OSPEEDR: `return reg.OSPEEDR` (R83). -/
def execRdOspeedr (s : State) : Host.Outcome State Fault Refusal := completeRead s s.port.ospeedr

/-- RD_PUPDR: `return reg.PUPDR` (R84). -/
def execRdPupdr (s : State) : Host.Outcome State Fault Refusal := completeRead s s.port.pupdr

/-- RD_IDR: `return reg.IDR`, the stored value, not a fresh evaluation (R85). -/
def execRdIdr (s : State) : Host.Outcome State Fault Refusal := completeRead s s.port.idr

/-- RD_ODR: `return reg.ODR`, the requested levels (R86). -/
def execRdOdr (s : State) : Host.Outcome State Fault Refusal := completeRead s s.port.odr

/-- RD_BSRR: "write-only (reads return 0)", with no diagnostic (R87, D16: DESIGN CHOICE of the spec, unsafe for the
diagnostic trace alone, log 16). -/
def execRdBsrr (s : State) : Host.Outcome State Fault Refusal := completeRead s 0x00000000#32

/-- RD_LCKR: `return reg.LCKR` (R88). -/
def execRdLckr (s : State) : Host.Outcome State Fault Refusal := completeRead s s.port.lckr

/-- RD_AFRL: `return reg.AFRL` (R89). -/
def execRdAfrl (s : State) : Host.Outcome State Fault Refusal := completeRead s s.port.afrl

/-- RD_AFRH: `return reg.AFRH` (R90). -/
def execRdAfrh (s : State) : Host.Outcome State Fault Refusal := completeRead s s.port.afrh

/-- RD_UNKNOWN: `emit Diag.BadOffset(read, offset); return 0x00000000` (R91). -/
def execRdUnknown (off : Offset) (s : State) : Host.Outcome State Fault Refusal :=
  complete s s.port (raiseDiag (.badOffsetRead off) []) (.value 0x00000000#32)

end Sys2Proof.Machine
end

