-- ==== Sys2Proof/Machine/RegisterWrite.lean ====
section
/-! DEFINITION. RegisterFile, every write (spec R92 to R103). -/

namespace Sys2Proof.Machine

/-- WR_MODER: `reg.MODER <- value; resolve_pass()` (R93). -/
def execWrModer (v : Word) (s : State) : Host.Outcome State Fault Refusal :=
  completeTrigger s { s.port with moder := v }

/-- WR_OTYPER: `reg.OTYPER <- value; resolve_pass()` (R94). -/
def execWrOtyper (v : Word) (s : State) : Host.Outcome State Fault Refusal :=
  completeTrigger s { s.port with otyper := v }

/-- WR_OSPEEDR: `reg.OSPEEDR <- value; resolve_pass()` (R95). -/
def execWrOspeedr (v : Word) (s : State) : Host.Outcome State Fault Refusal :=
  completeTrigger s { s.port with ospeedr := v }

/-- WR_PUPDR: `reg.PUPDR <- value; resolve_pass()` (R96). -/
def execWrPupdr (v : Word) (s : State) : Host.Outcome State Fault Refusal :=
  completeTrigger s { s.port with pupdr := v }

/-- WR_IDR: "accepted but has no effect (silently discarded)": no pass, no event (R97, C2, D5: DESIGN
CHOICE of the spec, unsafe while IDR is stale or a conflict stands, log 11). -/
def execWrIdr (_v : Word) (s : State) : Host.Outcome State Fault Refusal :=
  complete s s.port [] .noValue

/-- WR_ODR: `reg.ODR <- value; resolve_pass()` (R98). -/
def execWrOdr (v : Word) (s : State) : Host.Outcome State Fault Refusal :=
  completeTrigger s { s.port with odr := v }

/-- WR_BSRR: `reg.ODR <- (reg.ODR & ~clr) | set; resolve_pass()` (R99). -/
def execWrBsrr (v : Word) (s : State) : Host.Outcome State Fault Refusal :=
  completeTrigger s { s.port with odr := bsrrUpdate s.port.odr v }

/-- WR_LCKR: `reg.LCKR <- value; resolve_pass()`; it locks nothing (R100). -/
def execWrLckr (v : Word) (s : State) : Host.Outcome State Fault Refusal :=
  completeTrigger s { s.port with lckr := v }

/-- WR_AFRL: `reg.AFRL <- value; resolve_pass()` (R101). -/
def execWrAfrl (v : Word) (s : State) : Host.Outcome State Fault Refusal :=
  completeTrigger s { s.port with afrl := v }

/-- WR_AFRH: `reg.AFRH <- value; resolve_pass()` (R102). -/
def execWrAfrh (v : Word) (s : State) : Host.Outcome State Fault Refusal :=
  completeTrigger s { s.port with afrh := v }

/-- WR_UNKNOWN: `emit Diag.BadOffset(write, offset, value)`; nothing is written and no pass is run (R103, D6:
DESIGN CHOICE of the spec, unsafe as WR_IDR is, log 11). -/
def execWrUnknown (off : Offset) (v : Word) (s : State) : Host.Outcome State Fault Refusal :=
  complete s s.port (raiseDiag (.badOffsetWrite off v) []) .noValue

end Sys2Proof.Machine
end

