-- ==== Sys2Proof/Machine/System.lean ====
section
/-! DEFINITION. ResetPolicy and SnapshotCodec (spec R145 to R147, R180 to R184), and the construction of a port (R183). -/

namespace Sys2Proof.Machine

/-- RESET: every state item zero, no pass and no event (R180, R184, C1). -/
def execReset (s : State) : Host.Outcome State Fault Refusal := complete s Port.zero [] .noValue

/-- SAVE: the eleven words, and no effect (R146, D23: DESIGN CHOICE of the spec, unsafe if the original has one, log 19). -/
def execSave (s : State) : Host.Outcome State Fault Refusal := complete s s.port [] (.snapshot (snapshotOf s.port))

/-- RESTORE: all eleven items overwritten, IDR among them, with no pass and no event (R147). -/
def execRestore (f : Snapshot) (s : State) : Host.Outcome State Fault Refusal :=
  complete s (portOf s.pinCount f) [] .noValue

/-- `NEW id, n`: a port constructed and reset (R183, R70); a pin count outside `1..16` is refused (R6, D20: DESIGN CHOICE of
the spec, safe, log 17). -/
def construct (id : Identity) (n : Nat) : Host.Outcome State Fault Refusal :=
  if 1 ≤ n ∧ n ≤ Config.maxPins then .next (State.constructed id n) else .refused (.pinCount n)

end Sys2Proof.Machine
end

