-- ==== Sys2Proof/Machine/Dispatch.lean ====
section
/-! DEFINITION. One arm for each operation of spec/opcode_table.json. -/

namespace Sys2Proof.Machine

def exec (i : Instr) (s : State) : Host.Outcome State Fault Refusal :=
  match i with
  | .rdModer => Sys2Proof.Machine.execRdModer s
  | .rdOtyper => Sys2Proof.Machine.execRdOtyper s
  | .rdOspeedr => Sys2Proof.Machine.execRdOspeedr s
  | .rdPupdr => Sys2Proof.Machine.execRdPupdr s
  | .rdIdr => Sys2Proof.Machine.execRdIdr s
  | .rdOdr => Sys2Proof.Machine.execRdOdr s
  | .rdBsrr => Sys2Proof.Machine.execRdBsrr s
  | .rdLckr => Sys2Proof.Machine.execRdLckr s
  | .rdAfrl => Sys2Proof.Machine.execRdAfrl s
  | .rdAfrh => Sys2Proof.Machine.execRdAfrh s
  | .rdUnknown off => Sys2Proof.Machine.execRdUnknown off s
  | .wrModer v => Sys2Proof.Machine.execWrModer v s
  | .wrOtyper v => Sys2Proof.Machine.execWrOtyper v s
  | .wrOspeedr v => Sys2Proof.Machine.execWrOspeedr v s
  | .wrPupdr v => Sys2Proof.Machine.execWrPupdr v s
  | .wrIdr v => Sys2Proof.Machine.execWrIdr v s
  | .wrOdr v => Sys2Proof.Machine.execWrOdr v s
  | .wrBsrr v => Sys2Proof.Machine.execWrBsrr v s
  | .wrLckr v => Sys2Proof.Machine.execWrLckr v s
  | .wrAfrl v => Sys2Proof.Machine.execWrAfrl v s
  | .wrAfrh v => Sys2Proof.Machine.execWrAfrh v s
  | .wrUnknown off v => Sys2Proof.Machine.execWrUnknown off v s
  | .lineLow p => Sys2Proof.Machine.execLineLow p s
  | .lineHigh p => Sys2Proof.Machine.execLineHigh p s
  | .lineRelease p => Sys2Proof.Machine.execLineRelease p s
  | .reset => Sys2Proof.Machine.execReset s
  | .save => Sys2Proof.Machine.execSave s
  | .restore f => Sys2Proof.Machine.execRestore f s

end Sys2Proof.Machine
end

