-- ==== Sys2Proof/Machine/Fetch.lean ====
section
/-! DEFINITION. From a request of the environment to the packet it stands for (spec R7, R9, R60, R61), with the checks the
contract of R9 makes on the way: access width (R42), window (R45), pin index (R139), line level (R140). -/

namespace Sys2Proof.Machine

/-- A bus access of `n` bytes at `addr`: 4 bytes, inside the window (R42, R45); the width is looked at first
(DESIGN CHOICE, safe, log 6). -/
def busOffset (addr n : Nat) : Except Refusal Offset :=
  if n ≠ Config.accessWidth then .error (.accessWidth n)
  else if Config.windowBytes ≤ addr then .error (.outsideWindow addr)
  else .ok (BitVec.ofNat 10 addr)

/-- A pin index the pin operand can hold; one outside `0..15` is outside `[0, N)` for every port (R6, R139). -/
def pinOperand (pin : Int) : Except Refusal PinOperand :=
  if 0 ≤ pin ∧ pin < 16 then .ok (BitVec.ofNat 4 pin.toNat) else .error (.configurationError pin)

/-- The integer form of a line value: "any negative value" is Release, 0 DriveLow, 1 DriveHigh, and other positive values
"are not described" (R140): refused (DESIGN CHOICE, safe, log 7). -/
def lineValueOf (level : Int) : Except Refusal LineValue :=
  if level < 0 then .ok .release
  else if level = 0 then .ok .driveLow
  else if level = 1 then .ok .driveHigh
  else .error (.lineLevel level)

/-- The packet of a `setLine` call (R61, R135). -/
def linePacket (pin : Int) (v : LineValue) : Except Refusal (List Word) :=
  (pinOperand pin).map fun p => packet (lineSel v p) []

/-- The packet a request stands for, or why the contract gives it none. Of a call in the integer form with both a level R140
does not describe and a pin outside the port, the level is what the refusal names: the spec does not say which (DESIGN CHOICE,
safe, log 6). -/
def requestPacket : Request → Except Refusal (List Word)
  | .words ws => .ok ws
  | .memRead addr n => (busOffset addr n).map fun off => packet (readSel off) []
  | .memWrite addr n v => (busOffset addr n).map fun off => packet (writeSel off) [v]
  | .setLine pin v => linePacket pin v
  | .setLevel pin level =>
    match lineValueOf level with
    | .ok v => linePacket pin v
    | .error r => .error r
  | .reset => .ok (encode .reset)
  | .save => .ok (encode .save)
  | .restore f => .ok (encode (.restore f))

/-- The operation a request invokes, or why it invokes none. -/
def requestInstr (r : Request) : Except Refusal Instr :=
  match requestPacket r with
  | .error e => .error e
  | .ok ws =>
    match decode ws with
    | .error e => .error (.notAnOperation e)
    | .ok i => .ok i

/-- The next operation: the oldest the environment has yet to deliver (R53). -/
def fetch (s : State) : Except Refusal (Instr × State) :=
  match s.pending with
  | [] => .error .noOperation
  | r :: rest =>
    match requestInstr r with
    | .error e => .error e
    | .ok i => .ok (i, { s with pending := rest })

/-- The state in which the packet with bits `w` is the next operation delivered. -/
def placeNext (s : State) (nbits w : Nat) : State :=
  { s with pending := .words (tablePacket nbits w) :: s.pending }

end Sys2Proof.Machine
end

