-- ==== Sys2Proof/Machine/Step.lean ====
section
/-! DEFINITION. One step: the environment's next operation runs to completion (spec R4, R51). -/

namespace Sys2Proof.Machine

/-- Take the oldest pending operation and execute it; a refused request has no step (R7). -/
def step (s : State) : Host.Outcome State Fault Refusal :=
  match fetch s with
  | .error r => .refused r
  | .ok (i, t) => exec i t

/-- `s` with the operation whose table bits are `w` delivered next; nothing else is changed (log 1, log 5). -/
def State.withFetchWord (s : State) (nbits w : Nat) : State := placeNext s nbits w

end Sys2Proof.Machine
end

