-- ==== Sys2Proof/Safety.lean ====
section
/-! DEFINITION. The terms claims are stated in, each written from the spec's own formula and not from the model's functions:
the level function (spec R115), what a resolution pass leaves (R110 to R117), the order of a trace (R118), the invariant every
step keeps, the consistency of IDR (R22), and the triggers (R119). -/

namespace Sys2Proof.Safety

open Sys2Proof.Machine

/-- Pin `i` is in Output mode: `MODER[2i+1:2i] == 1` (R110). -/
abbrev IsOutput (p : Port) (i : Nat) : Prop := p.moder.extractLsb' (2 * i) 2 = 1#2

/-- `level = overridden ? ovalue : (mode == 1 ? requested : (pull == 1))` (R115). -/
def resolvedLevel (p : Port) (i : Nat) : Bool :=
  if p.ovrEn.getLsbD i then p.ovrVal.getLsbD i
  else if IsOutput p i then p.odr.getLsbD i
  else decide (p.pupdr.extractLsb' (2 * i) 2 = 1#2)

/-- What the environment and the parameters keep across an operation: N, ID (R27) and the operations still to come. -/
structure SameSides (s t : State) : Prop where
  pinCount : t.pinCount = s.pinCount
  identity : t.identity = s.identity
  pending : t.pending = s.pending

/-- `t` is what one resolution pass leaves of `s` when the pass starts from the port `p` (R110). -/
structure AfterPass (s : State) (p : Port) (t : State) : Prop where
  /-- the pass writes IDR and nothing else (R116) -/
  others : t.port = { p with idr := t.port.idr }
  /-- every pin's level, and the bits of IDR that are no pin's (R113, R116) -/
  levels : ∀ i, i < 32 →
    t.port.idr.getLsbD i = if i < s.pinCount then resolvedLevel p i else p.idr.getLsbD i
  /-- a conflict exactly for each overridden Output pin, once (R112, R157) -/
  conflicts : ∀ i, t.events.count (.diag (.driveConflict i)) =
    if i < s.pinCount ∧ IsOutput p i ∧ p.ovrEn.getLsbD i = true then 1 else 0
  /-- an edge exactly for each Output pin whose level changed, once, with the new level (R117, R126) -/
  edges : ∀ i b, t.events.count (.edge i b) =
    if i < s.pinCount ∧ IsOutput p i ∧ b = resolvedLevel p i ∧ b ≠ p.idr.getLsbD i then 1 else 0
  /-- a pass reports no bad offset (R163) -/
  noBadRead : ∀ off, Event.diag (.badOffsetRead off) ∉ t.events
  noBadWrite : ∀ off v, Event.diag (.badOffsetWrite off v) ∉ t.events
  /-- a trigger returns no value (R60) -/
  noResult : t.result = .noValue
  sides : SameSides s t

/-- The place of a pass's event in the order of R118: ascending pin, a pin's conflict before its edge. -/
def eventRank : Event → Nat
  | .edge i _ => 2 * i + 1
  | .diag (.driveConflict i) => 2 * i
  | .diag (.badOffsetRead _) => 0
  | .diag (.badOffsetWrite _ _) => 0

/-- The trace is in the order of R118, and no event stands twice. -/
abbrev InPinOrder (es : List Event) : Prop := es.Pairwise fun a b => eventRank a < eventRank b

/-- The pin an event names, if it names one, is below `n` (R125, R157). -/
def namesPinBelow (n : Nat) : Event → Bool
  | .edge i _ => decide (i < n)
  | .diag (.driveConflict i) => decide (i < n)
  | .diag (.badOffsetRead _) => true
  | .diag (.badOffsetWrite _ _) => true

/-- The vectors have N bits (R10, R21): in the 16 that hold them, bits `[15:N]` are zero (log 3). -/
abbrev VectorsInRange (s : State) : Prop :=
  ∀ i, i < 16 → s.pinCount ≤ i → s.port.ovrEn.getLsbD i = false ∧ s.port.ovrVal.getLsbD i = false

/-- The invariant every step keeps: N in `1..16` (R6), override vectors of N bits (R21), and a trace that names only pins of
the port (R125), in pin order (R118). -/
abbrev Inv (s : State) : Prop :=
  (1 ≤ s.pinCount ∧ s.pinCount ≤ 16) ∧ VectorsInRange s ∧
    s.events.all (namesPinBelow s.pinCount) = true ∧ InPinOrder s.events

/-- IDR is consistent: every pin's bit is its resolved level (R22). -/
abbrev Consistent (s : State) : Prop :=
  ∀ i, i < s.pinCount → s.port.idr.getLsbD i = resolvedLevel s.port i

/-- The triggers (R119): the writes to MODER, OTYPER, OSPEEDR, PUPDR, ODR, BSRR, LCKR, AFRL, AFRH, and every line event. -/
def isTrigger : Instr → Bool
  | .wrModer _ => true
  | .wrOtyper _ => true
  | .wrOspeedr _ => true
  | .wrPupdr _ => true
  | .wrOdr _ => true
  | .wrBsrr _ => true
  | .wrLckr _ => true
  | .wrAfrl _ => true
  | .wrAfrh _ => true
  | .lineLow _ => true
  | .lineHigh _ => true
  | .lineRelease _ => true
  | _ => false

/-- A line event, with the pin it names (R135). -/
def linePin : Instr → Option PinOperand
  | .lineLow p => some p
  | .lineHigh p => some p
  | .lineRelease p => some p
  | _ => none

/-- The operation is inside the contract of R9 on a port of `n` pins: a line event names a pin below `n` (R139). -/
def withinContract (n : Nat) (i : Instr) : Bool :=
  match linePin i with
  | some p => decide (p.toNat < n)
  | none => true

/-- The same outcome on a state with its identity replaced. -/
def withIdentity (id : Identity) : Host.Outcome State Fault Refusal → Host.Outcome State Fault Refusal
  | .next t => .next { t with identity := id }
  | .fault r => .fault r
  | .refused r => .refused r

/-- Two ports agree on all that the resolver reads and writes: they may differ in OTYPER, OSPEEDR, LCKR, AFRL, AFRH (R111). -/
structure AgreeOnResolver (p q : Port) : Prop where
  moder : p.moder = q.moder
  pupdr : p.pupdr = q.pupdr
  idr : p.idr = q.idr
  odr : p.odr = q.odr
  ovrEn : p.ovrEn = q.ovrEn
  ovrVal : p.ovrVal = q.ovrVal

/-- The instruction returns the content of OTYPER, OSPEEDR, LCKR, AFRL or AFRH: a read of one, or SAVE (R12, R13, R17). -/
def readsStoredOnly : Instr → Bool
  | .rdOtyper => true
  | .rdOspeedr => true
  | .rdLckr => true
  | .rdAfrl => true
  | .rdAfrh => true
  | .save => true
  | _ => false

/-- The five registers that are stored and read back only (R12, R13, R17 to R19). -/
inductive StoredOnly where
  | otyper
  | ospeedr
  | lckr
  | afrl
  | afrh
deriving DecidableEq, Repr

/-- The port with that register's content replaced. -/
def StoredOnly.put (r : StoredOnly) (v : Word) (p : Port) : Port :=
  match r with
  | .otyper => { p with otyper := v }
  | .ospeedr => { p with ospeedr := v }
  | .lckr => { p with lckr := v }
  | .afrl => { p with afrl := v }
  | .afrh => { p with afrh := v }

/-- The snapshot with that register's field replaced (R145). -/
def StoredOnly.putField (r : StoredOnly) (v : Word) (f : Snapshot) : Snapshot :=
  match r with
  | .otyper => { f with f1 := v }
  | .ospeedr => { f with f2 := v }
  | .lckr => { f with f6 := v }
  | .afrl => { f with f7 := v }
  | .afrh => { f with f8 := v }

/-- The read of that register (R82, R83, R88 to R90). -/
def StoredOnly.read : StoredOnly → Instr
  | .otyper => .rdOtyper
  | .ospeedr => .rdOspeedr
  | .lckr => .rdLckr
  | .afrl => .rdAfrl
  | .afrh => .rdAfrh

/-- A bus read (R81 to R91). -/
def isRead : Instr → Bool
  | .rdModer => true
  | .rdOtyper => true
  | .rdOspeedr => true
  | .rdPupdr => true
  | .rdIdr => true
  | .rdOdr => true
  | .rdBsrr => true
  | .rdLckr => true
  | .rdAfrl => true
  | .rdAfrh => true
  | .rdUnknown _ => true
  | _ => false

/-- A system operation that overwrites every state item: RESET or RESTORE (R147, R180). -/
def overwritesAll : Instr → Bool
  | .reset => true
  | .restore _ => true
  | _ => false

/-- The pin of an output edge (R125). -/
def edgePin : Event → Option Nat
  | .edge i _ => some i
  | .diag _ => none

end Sys2Proof.Safety
end

