-- ==== Sys2Proof/Certificates/Slice0/Obligations.lean ====
section
/-! DEFINITION. The statements about the model. "Consistent", "AfterPass", "Inv" and the like are Sys2Proof/Safety.lean's. -/

open Sys2Proof Sys2Proof.Machine Sys2Proof.Safety

-- ==== Encoding (30_encoding.md) ====

/-- Decoding the packet of any operation of the table gives the operation back, with every operand at every value. The packet
is the model's layout of R61's selector (log 5). -/
def Obligations.DecodeInvertsEncode : Prop :=
  ∀ i : Instr, WellFormed i → decode (encode i) = .ok i

/-- Every packet that decodes is the packet of what it decodes to, and that is an operation of the table (log 5). -/
def Obligations.EncodeInvertsDecode : Prop :=
  ∀ (ws : List Word) (i : Instr), decode ws = .ok i → WellFormed i ∧ encode i = ws

/-- A bus access is chosen by an exact match of its offset with the ten of R41; every other offset of the window, aligned or
not (D8), is the unknown-offset operation of the same direction (R67 (2)). -/
def Obligations.EveryOffsetDecodesByExactMatch : Prop :=
  ∀ (off : Offset) (v : Word),
    decode [off.setWidth 32] = .ok (
      if off = 0x000#10 then .rdModer else if off = 0x004#10 then .rdOtyper
      else if off = 0x008#10 then .rdOspeedr else if off = 0x00C#10 then .rdPupdr
      else if off = 0x010#10 then .rdIdr else if off = 0x014#10 then .rdOdr
      else if off = 0x018#10 then .rdBsrr else if off = 0x01C#10 then .rdLckr
      else if off = 0x020#10 then .rdAfrl else if off = 0x024#10 then .rdAfrh
      else .rdUnknown off) ∧
    decode [0x400#32 ||| off.setWidth 32, v] = .ok (
      if off = 0x000#10 then .wrModer v else if off = 0x004#10 then .wrOtyper v
      else if off = 0x008#10 then .wrOspeedr v else if off = 0x00C#10 then .wrPupdr v
      else if off = 0x010#10 then .wrIdr v else if off = 0x014#10 then .wrOdr v
      else if off = 0x018#10 then .wrBsrr v else if off = 0x01C#10 then .wrLckr v
      else if off = 0x020#10 then .wrAfrl v else if off = 0x024#10 then .wrAfrh v
      else .wrUnknown off v)

/-- The words R61 writes out, and one of each further family of R67's table. -/
def Obligations.SpecWordsDecode : Prop :=
  decode [0x010#32] = .ok .rdIdr ∧
  decode [0x030#32] = .ok (.rdUnknown 0x030#10) ∧
  decode [0x418#32, 0x00010001#32] = .ok (.wrBsrr 0x00010001#32) ∧
  decode [0x430#32, 0xDEADBEEF#32] = .ok (.wrUnknown 0x030#10 0xDEADBEEF#32) ∧
  decode [0x801#32] = .ok (.lineLow 1#4) ∧
  decode [0x813#32] = .ok (.lineHigh 3#4) ∧
  decode [0x820#32] = .ok (.lineRelease 0#4) ∧
  decode [0xC00#32] = .ok .reset ∧
  decode [0xC01#32] = .ok .save ∧
  decode [0xC02#32, 1, 2, 3, 4, 5, 6, 7, 8, 9, 10, 11] = .ok (.restore ⟨1, 2, 3, 4, 5, 6, 7, 8, 9, 10, 11⟩)

/-- A selector stands for an operation, with some data beside it, exactly when it is none of R68's "not an operation" patterns. -/
def Obligations.OnlyReservedSelectorsAreRefused : Prop :=
  ∀ sel : BitVec 12,
    (∃ data i, decode (packet sel data) = .ok i) ↔
      ¬((sel.extractLsb' 10 2 = 2#2 ∧ (sel.extractLsb' 6 4 ≠ 0#4 ∨ sel.extractLsb' 4 2 = 3#2)) ∨
        (sel.extractLsb' 10 2 = 3#2 ∧ (sel.extractLsb' 2 8 ≠ 0#8 ∨ sel.extractLsb' 0 2 = 3#2)))

-- ==== The step and the environment's calls (00_scope.md, 20_memory.md) ====

/-- A step takes the oldest pending operation and executes it; around the execution it only removes it from the pending ones. -/
def Obligations.StepRunsTheDecodedInstruction : Prop :=
  ∀ (s : State) (ws : List Word) (rest : List Request) (i : Instr),
    s.pending = .words ws :: rest → decode ws = .ok i → step s = exec i { s with pending := rest }

/-- Each call of R4 and R7 that is inside the contract of R9 runs the operation it names. -/
def Obligations.CallsReachTheirOperation : Prop :=
  ∀ (s : State) (rest : List Request),
    (∀ addr, addr < 0x400 → s.pending = .memRead addr 4 :: rest →
      ∃ i, decode [BitVec.ofNat 32 addr] = .ok i ∧ step s = exec i { s with pending := rest }) ∧
    (∀ addr v, addr < 0x400 → s.pending = .memWrite addr 4 v :: rest →
      ∃ i, decode [BitVec.ofNat 32 (0x400 + addr), v] = .ok i ∧ step s = exec i { s with pending := rest }) ∧
    (∀ p : PinOperand, s.pending = .setLine p.toNat .driveLow :: rest →
      step s = exec (.lineLow p) { s with pending := rest }) ∧
    (∀ p : PinOperand, s.pending = .setLine p.toNat .driveHigh :: rest →
      step s = exec (.lineHigh p) { s with pending := rest }) ∧
    (∀ p : PinOperand, s.pending = .setLine p.toNat .release :: rest →
      step s = exec (.lineRelease p) { s with pending := rest }) ∧
    (s.pending = .reset :: rest → step s = exec .reset { s with pending := rest }) ∧
    (s.pending = .save :: rest → step s = exec .save { s with pending := rest }) ∧
    (∀ f, s.pending = .restore f :: rest → step s = exec (.restore f) { s with pending := rest })

/-- The signed-integer form of a line event (R140). -/
def Obligations.IntegerLevelsMapToLineValues : Prop :=
  ∀ (s : State) (rest : List Request) (p : PinOperand) (l : Int),
    s.pending = .setLevel p.toNat l :: rest →
      (l < 0 → step s = exec (.lineRelease p) { s with pending := rest }) ∧
      (l = 0 → step s = exec (.lineLow p) { s with pending := rest }) ∧
      (l = 1 → step s = exec (.lineHigh p) { s with pending := rest })

/-- What is outside the contract has no step: no operation pending (R4, log 1), a width other than 4 (D7), an offset outside the
window (D9), a pin outside `[0, N)` (D10), and a positive integer level other than 1 (R140 describes none; log 7). Where two of
these meet, which one the refusal names is the model's choice: the width before the window, the level before the pin (log 6). -/
def Obligations.CallsOutsideTheContractAreRefused : Prop :=
  ∀ (s : State) (rest : List Request),
    (s.pending = [] → step s = .refused .noOperation) ∧
    (∀ addr n, n ≠ 4 → s.pending = .memRead addr n :: rest → step s = .refused (.accessWidth n)) ∧
    (∀ addr n v, n ≠ 4 → s.pending = .memWrite addr n v :: rest → step s = .refused (.accessWidth n)) ∧
    (∀ addr, 0x400 ≤ addr → s.pending = .memRead addr 4 :: rest → step s = .refused (.outsideWindow addr)) ∧
    (∀ addr v, 0x400 ≤ addr → s.pending = .memWrite addr 4 v :: rest → step s = .refused (.outsideWindow addr)) ∧
    (∀ (p : Int) (v : LineValue), p < 0 ∨ (s.pinCount : Int) ≤ p → s.pending = .setLine p v :: rest →
      step s = .refused (.configurationError p)) ∧
    (∀ p l : Int, 1 < l → s.pending = .setLevel p l :: rest → step s = .refused (.lineLevel l))

/-- Every operation completes in every state, whatever it reports on the way (R121, R158), but for a line event on a pin at or
above N, which has no meaning (D10). No operation changes N or ID (R27) or what is pending. -/
def Obligations.EveryOperationCompletesInsideTheContract : Prop :=
  ∀ (i : Instr) (s : State),
    (withinContract s.pinCount i = true → ∃ t, exec i s = .next t ∧ SameSides s t) ∧
    (withinContract s.pinCount i = false →
      ∃ p, linePin i = some p ∧ exec i s = .refused (.configurationError p.toNat))

-- ==== Reads (40_register_access.md section 1) ====

/-- Each read of a defined offset returns its word and changes nothing else; BSRR reads 0 and reports nothing (D16). Words are
returned whole (D2). -/
def Obligations.ReadsReturnTheStoredWord : Prop :=
  ∀ (s : State) (i : Instr) (v : Word),
    (i, v) ∈ [(Instr.rdModer, s.port.moder), (.rdOtyper, s.port.otyper), (.rdOspeedr, s.port.ospeedr),
      (.rdPupdr, s.port.pupdr), (.rdIdr, s.port.idr), (.rdOdr, s.port.odr), (.rdBsrr, 0x00000000#32),
      (.rdLckr, s.port.lckr), (.rdAfrl, s.port.afrl), (.rdAfrh, s.port.afrh)] →
    exec i s = .next { s with events := [], result := .value v }

/-- RD_UNKNOWN returns 0, reports BadOffset once, and changes nothing (R91; misaligned offsets by D8, the report's form by
D15). -/
def Obligations.UnknownReadReturnsZeroAndReports : Prop :=
  ∀ (s : State) (off : Offset), off ∉ definedOffsets →
    decode [off.setWidth 32] = .ok (.rdUnknown off) ∧
    exec (.rdUnknown off) s = .next { s with events := [.diag (.badOffsetRead off)], result := .value 0x00000000#32 }

/-- RD_LCKR, RD_AFRL and RD_AFRH (R88, R89, R90): their encoding, what they return, that they write and report nothing, and that
what was written is read back. -/
def Obligations.LockAndFunctionRegistersReadBack : Prop :=
  decode [0x01C#32] = .ok .rdLckr ∧ decode [0x020#32] = .ok .rdAfrl ∧ decode [0x024#32] = .ok .rdAfrh ∧
  ∀ s : State,
    exec .rdLckr s = .next { s with events := [], result := .value s.port.lckr } ∧
    exec .rdAfrl s = .next { s with events := [], result := .value s.port.afrl } ∧
    exec .rdAfrh s = .next { s with events := [], result := .value s.port.afrh } ∧
    ∀ v : Word,
      (∃ t u, exec (.wrLckr v) s = .next t ∧ exec .rdLckr t = .next u ∧ u.result = .value v) ∧
      (∃ t u, exec (.wrAfrl v) s = .next t ∧ exec .rdAfrl t = .next u ∧ u.result = .value v) ∧
      (∃ t u, exec (.wrAfrh v) s = .next t ∧ exec .rdAfrh t = .next u ∧ u.result = .value v)

/-- A register read changes no state and its only side effect is the report of an unknown offset; reading twice returns the
same value twice (R49). -/
def Obligations.ReadsChangeNothing : Prop :=
  ∀ (s : State) (off : Offset), ∃ i t u v,
    decode [off.setWidth 32] = .ok i ∧
    exec i s = .next t ∧ t.port = s.port ∧ t.result = .value v ∧
    (off ∈ definedOffsets → t.events = []) ∧
    (∀ e ∈ t.events, e = .diag (.badOffsetRead off)) ∧
    exec i t = .next u ∧ u.port = s.port ∧ u.result = .value v

/-- A read of a stored register returns the latest word written to it (R53 (a)), all 32 bits (D2). -/
def Obligations.ReadAfterWriteReturnsTheWord : Prop :=
  ∀ (s : State) (v : Word) (w r : Instr),
    (w, r) ∈ [(Instr.wrModer v, Instr.rdModer), (.wrOtyper v, .rdOtyper), (.wrOspeedr v, .rdOspeedr),
      (.wrPupdr v, .rdPupdr), (.wrOdr v, .rdOdr), (.wrLckr v, .rdLckr), (.wrAfrl v, .rdAfrl), (.wrAfrh v, .rdAfrh)] →
    ∃ t u, exec w s = .next t ∧ exec r t = .next u ∧ u.result = .value v

-- ==== Writes (40_register_access.md section 2) ====

/-- WR_MODER, WR_PUPDR, WR_ODR: the word is stored whole (D2), one pass runs from the updated port, and nothing else changes. -/
def Obligations.ResolverRegisterWritesResolve : Prop :=
  ∀ (s : State) (v : Word),
    (∃ t, exec (.wrModer v) s = .next t ∧ AfterPass s { s.port with moder := v } t) ∧
    (∃ t, exec (.wrPupdr v) s = .next t ∧ AfterPass s { s.port with pupdr := v } t) ∧
    (∃ t, exec (.wrOdr v) s = .next t ∧ AfterPass s { s.port with odr := v } t)

/-- WR_OTYPER, WR_OSPEEDR, WR_LCKR, WR_AFRL, WR_AFRH (R94, R95, R100, R101, R102), each with its selector: the word is stored, one
pass runs from the updated port, nothing else changes, and on a port whose IDR was consistent the pass leaves IDR as it was and
emits no edge. -/
def Obligations.StoredOnlyRegisterWritesResolve : Prop :=
  ∀ (s : State) (v sel : Word) (i : Instr) (p : Port),
    (sel, i, p) ∈ [(0x404#32, Instr.wrOtyper v, { s.port with otyper := v }),
      (0x408#32, .wrOspeedr v, { s.port with ospeedr := v }), (0x41C#32, .wrLckr v, { s.port with lckr := v }),
      (0x420#32, .wrAfrl v, { s.port with afrl := v }), (0x424#32, .wrAfrh v, { s.port with afrh := v })] →
    decode [sel, v] = .ok i ∧ ∃ t, exec i s = .next t ∧ AfterPass s p t ∧
      (Consistent s → t.port.idr = s.port.idr ∧ ∀ j b, Event.edge j b ∉ t.events)

/-- WR_BSRR, bit by bit as R99's table: set wins over clear, bits `[31:16]` of ODR are kept (BSRR_MASK is D3's), then one pass as
if the new ODR had been written. -/
def Obligations.BsrrWriteSetsAndClears : Prop :=
  ∀ (s : State) (v : Word), ∃ t odr, exec (.wrBsrr v) s = .next t ∧
    (∀ k, k < 16 → odr.getLsbD k =
      if v.getLsbD k then true else if v.getLsbD (16 + k) then false else s.port.odr.getLsbD k) ∧
    (∀ k, 16 ≤ k → odr.getLsbD k = s.port.odr.getLsbD k) ∧
    AfterPass s { s.port with odr := odr } t

/-- WR_IDR does nothing: no state, no pass, no event (R97 with D5 and C2). -/
def Obligations.IdrWriteIsDiscarded : Prop :=
  ∀ (s : State) (v : Word),
    decode [0x410#32, v] = .ok (.wrIdr v) ∧
    exec (.wrIdr v) s = .next { s with events := [], result := .noValue }

/-- WR_UNKNOWN reports BadOffset once and does nothing else: no pass (R103 with D6, D8, D15). -/
def Obligations.UnknownWriteOnlyReports : Prop :=
  ∀ (s : State) (off : Offset) (v : Word), off ∉ definedOffsets →
    decode [0x400#32 ||| off.setWidth 32, v] = .ok (.wrUnknown off v) ∧
    exec (.wrUnknown off v) s = .next { s with events := [.diag (.badOffsetWrite off v)], result := .noValue }

/-- Every offset from 0x028 to the window's end, aligned or not: reads return 0, writes leave all registers unchanged, both are
reported (R44). -/
def Obligations.UnusedOffsetsReadZeroAndIgnoreWrites : Prop :=
  ∀ (s : State) (off : Offset) (v : Word), 0x028 ≤ off.toNat → ∃ i t j u,
    decode [off.setWidth 32] = .ok i ∧ exec i s = .next t ∧
    t.result = .value 0x00000000#32 ∧ t.port = s.port ∧ Event.diag (.badOffsetRead off) ∈ t.events ∧
    decode [0x400#32 ||| off.setWidth 32, v] = .ok j ∧ exec j s = .next u ∧
    u.port = s.port ∧ Event.diag (.badOffsetWrite off v) ∈ u.events

/-- SETPIN, CLRPIN and NOPW: one ODR bit set, one cleared, none changed, each with its pass (R71, derived by the spec from R99). -/
def Obligations.PseudoOperationsTouchOneBit : Prop :=
  ∀ (s : State) (k : PinOperand),
    (∃ t, exec (setPin k) s = .next t ∧
      AfterPass s { s.port with odr := s.port.odr ||| BitVec.twoPow 32 k.toNat } t) ∧
    (∃ t, exec (clrPin k) s = .next t ∧
      AfterPass s { s.port with odr := s.port.odr &&& ~~~BitVec.twoPow 32 k.toNat } t) ∧
    (∃ t, exec nopw s = .next t ∧ AfterPass s s.port t)

/-- The table of R105 (derived by the spec), for a port whose IDR is consistent: which pins a write can change and which can emit
an edge. -/
def Obligations.ConsistentWritesReachOnlyTheirPins : Prop :=
  ∀ (s : State) (v : Word), Consistent s →
    (∀ i, i ∈ [Instr.wrOtyper v, .wrOspeedr v, .wrLckr v, .wrAfrl v, .wrAfrh v] →
      ∃ t, exec i s = .next t ∧ t.port.idr = s.port.idr ∧ ∀ p b, Event.edge p b ∉ t.events) ∧
    (∃ t, exec (.wrPupdr v) s = .next t ∧ (∀ p b, Event.edge p b ∉ t.events) ∧
      ∀ p, IsOutput s.port p ∨ s.port.ovrEn.getLsbD p = true → t.port.idr.getLsbD p = s.port.idr.getLsbD p) ∧
    (∀ i, i ∈ [Instr.wrOdr v, .wrBsrr v] → ∃ t, exec i s = .next t ∧
      ∀ p, ¬IsOutput s.port p ∨ s.port.ovrEn.getLsbD p = true →
        t.port.idr.getLsbD p = s.port.idr.getLsbD p ∧ ∀ b, Event.edge p b ∉ t.events) ∧
    (∃ t, exec (.wrModer v) s = .next t ∧
      ∀ p, (IsOutput s.port p ↔ IsOutput t.port p) ∨ s.port.ovrEn.getLsbD p = true →
        t.port.idr.getLsbD p = s.port.idr.getLsbD p ∧ ∀ b, Event.edge p b ∉ t.events)

/-- R93 (a): a pin that is not overridden and is in Output mode after a mode write emits an edge exactly when `ODR[i]` differs
from the level it had; an overridden pin of a consistent port, and a pin outside Output mode, emit none. -/
def Obligations.ModeSwitchEdges : Prop :=
  ∀ (s : State) (v : Word) (i : Nat), i < s.pinCount → ∃ t, exec (.wrModer v) s = .next t ∧
    (v.extractLsb' (2 * i) 2 = 1#2 → s.port.ovrEn.getLsbD i = false →
      ∀ b, Event.edge i b ∈ t.events ↔ b = s.port.odr.getLsbD i ∧ s.port.odr.getLsbD i ≠ s.port.idr.getLsbD i) ∧
    (v.extractLsb' (2 * i) 2 ≠ 1#2 → ∀ b, Event.edge i b ∉ t.events) ∧
    (Consistent s → s.port.ovrEn.getLsbD i = true → ∀ b, Event.edge i b ∉ t.events)

-- ==== Line events (43_external_line.md) ====

/-- LINE_LOW (R136). `q` is the port with the override bits of pin `p` set; the pass runs from it. -/
def Obligations.LineLowDrivesThePinLow : Prop :=
  ∀ (s : State) (p : PinOperand), p.toNat < s.pinCount →
    decode [0x800#32 + p.setWidth 32] = .ok (.lineLow p) ∧
    ∃ t q u, exec (.lineLow p) s = .next t ∧
      q = { s.port with ovrEn := q.ovrEn, ovrVal := q.ovrVal } ∧
      (∀ j, j < 16 → q.ovrEn.getLsbD j = if j = p.toNat then true else s.port.ovrEn.getLsbD j) ∧
      (∀ j, j < 16 → q.ovrVal.getLsbD j = if j = p.toNat then false else s.port.ovrVal.getLsbD j) ∧
      AfterPass s q t ∧
      t.port.idr.getLsbD p.toNat = false ∧
      (Event.diag (.driveConflict p.toNat) ∈ t.events ↔ IsOutput s.port p.toNat) ∧
      (∀ b, Event.edge p.toNat b ∈ t.events ↔
        b = false ∧ IsOutput s.port p.toNat ∧ s.port.idr.getLsbD p.toNat = true) ∧
      exec (.lineLow p) t = .next u ∧ u.port = t.port ∧ (∀ j b, Event.edge j b ∉ u.events) ∧
      (Event.diag (.driveConflict p.toNat) ∈ u.events ↔ IsOutput s.port p.toNat)

/-- LINE_HIGH (R137); the last clause is the drive-high directly after a drive-low. -/
def Obligations.LineHighDrivesThePinHigh : Prop :=
  ∀ (s : State) (p : PinOperand), p.toNat < s.pinCount →
    decode [0x810#32 + p.setWidth 32] = .ok (.lineHigh p) ∧
    (∃ t q u, exec (.lineHigh p) s = .next t ∧
      q = { s.port with ovrEn := q.ovrEn, ovrVal := q.ovrVal } ∧
      (∀ j, j < 16 → q.ovrEn.getLsbD j = if j = p.toNat then true else s.port.ovrEn.getLsbD j) ∧
      (∀ j, j < 16 → q.ovrVal.getLsbD j = if j = p.toNat then true else s.port.ovrVal.getLsbD j) ∧
      AfterPass s q t ∧
      t.port.idr.getLsbD p.toNat = true ∧
      (Event.diag (.driveConflict p.toNat) ∈ t.events ↔ IsOutput s.port p.toNat) ∧
      (∀ b, Event.edge p.toNat b ∈ t.events ↔
        b = true ∧ IsOutput s.port p.toNat ∧ s.port.idr.getLsbD p.toNat = false) ∧
      exec (.lineHigh p) t = .next u ∧ u.port = t.port ∧ (∀ j b, Event.edge j b ∉ u.events) ∧
      (Event.diag (.driveConflict p.toNat) ∈ u.events ↔ IsOutput s.port p.toNat)) ∧
    ∃ t u, exec (.lineLow p) s = .next t ∧ exec (.lineHigh p) t = .next u ∧ u.port.idr.getLsbD p.toNat = true

/-- LINE_RELEASE (R138): the pin's `ovr_en` bit is cleared, `ovr_val` is kept (D11), and the pin falls back to ODR or its pull. -/
def Obligations.LineReleaseFallsBack : Prop :=
  ∀ (s : State) (p : PinOperand), p.toNat < s.pinCount →
    decode [0x820#32 + p.setWidth 32] = .ok (.lineRelease p) ∧
    ∃ t q, exec (.lineRelease p) s = .next t ∧
      q = { s.port with ovrEn := q.ovrEn } ∧
      (∀ j, j < 16 → q.ovrEn.getLsbD j = if j = p.toNat then false else s.port.ovrEn.getLsbD j) ∧
      AfterPass s q t ∧
      (IsOutput s.port p.toNat → t.port.idr.getLsbD p.toNat = s.port.odr.getLsbD p.toNat) ∧
      (¬IsOutput s.port p.toNat →
        t.port.idr.getLsbD p.toNat = decide (s.port.pupdr.extractLsb' (2 * p.toNat) 2 = 1#2)) ∧
      Event.diag (.driveConflict p.toNat) ∉ t.events ∧
      (∀ b, Event.edge p.toNat b ∈ t.events ↔ b = s.port.odr.getLsbD p.toNat ∧ IsOutput s.port p.toNat ∧
        s.port.odr.getLsbD p.toNat ≠ s.port.idr.getLsbD p.toNat)

/-- A line event on a pin at or above N is refused, with no state and no event (R139 with D10). -/
def Obligations.LinePinAtOrAboveNIsRefused : Prop :=
  ∀ (s : State) (p : PinOperand), s.pinCount ≤ p.toNat →
    exec (.lineLow p) s = .refused (.configurationError p.toNat) ∧
    exec (.lineHigh p) s = .refused (.configurationError p.toNat) ∧
    exec (.lineRelease p) s = .refused (.configurationError p.toNat)

/-- What a line event cannot do (R141): it changes no register but IDR and no other pin's override; no register setting can
reject it; no bus read returns it; and an override stays until a Release of its pin, a reset (which clears all of them) or a
restore. -/
def Obligations.LineEventsReachOnlyTheOverride : Prop :=
  (∀ (s : State) (p : PinOperand), p.toNat < s.pinCount →
    ∀ i, i ∈ [Instr.lineLow p, .lineHigh p, .lineRelease p] → ∃ t, exec i s = .next t ∧
      t.port = { s.port with idr := t.port.idr, ovrEn := t.port.ovrEn, ovrVal := t.port.ovrVal } ∧
      ∀ j, j ≠ p.toNat → t.port.ovrEn.getLsbD j = s.port.ovrEn.getLsbD j ∧
        t.port.ovrVal.getLsbD j = s.port.ovrVal.getLsbD j) ∧
  (∀ (s : State) (i : Instr) (e v : BitVec 16), isRead i = true → ∃ t u,
    exec i s = .next t ∧ exec i { s with port := { s.port with ovrEn := e, ovrVal := v } } = .next u ∧
    t.result = u.result) ∧
  (∀ (i : Instr) (s t : State), exec i s = .next t → overwritesAll i = false → linePin i = none →
    t.port.ovrEn = s.port.ovrEn ∧ t.port.ovrVal = s.port.ovrVal) ∧
  (∀ (i : Instr) (s t : State) (j : Nat), exec i s = .next t → overwritesAll i = false →
    (∀ p : PinOperand, p.toNat = j → i ≠ .lineRelease p) → s.port.ovrEn.getLsbD j = true →
    t.port.ovrEn.getLsbD j = true) ∧
  (∀ (s : State) (p : PinOperand), p.toNat < s.pinCount →
    ∃ t, exec (.lineRelease p) s = .next t ∧ t.port.ovrEn.getLsbD p.toNat = false) ∧
  (∀ s : State, ∃ t, exec .reset s = .next t ∧ t.port.ovrEn = 0#16 ∧ t.port.ovrVal = 0#16)

-- ==== Reset, construction, snapshot (70_reset_and_hazards.md, 44_snapshot_codec.md) ====

/-- RESET (R180): in any state, every item is zero, nothing is emitted, the parameters stay, a second reset changes nothing, and
every read of a defined offset returns 0. -/
def Obligations.ResetZeroesEverything : Prop :=
  decode [0xC00#32] = .ok .reset ∧
  ∀ s : State, ∃ t, exec .reset s = .next t ∧
    t.port.moder = 0x00000000#32 ∧ t.port.otyper = 0x00000000#32 ∧ t.port.ospeedr = 0x00000000#32 ∧
    t.port.pupdr = 0x00000000#32 ∧ t.port.idr = 0x00000000#32 ∧ t.port.odr = 0x00000000#32 ∧
    t.port.lckr = 0x00000000#32 ∧ t.port.afrl = 0x00000000#32 ∧ t.port.afrh = 0x00000000#32 ∧
    t.port.ovrEn = 0#16 ∧ t.port.ovrVal = 0#16 ∧
    t.events = [] ∧ t.result = .noValue ∧ SameSides s t ∧ exec .reset t = .next t ∧
    ∀ off, off ∈ definedOffsets → ∃ i u, decode [off.setWidth 32] = .ok i ∧ exec i t = .next u ∧
      u.result = .value 0x00000000#32 ∧ u.events = []

/-- Construction (R183): a port of N = n with every item zero, consistent and meeting the invariant; n outside `1..16` is refused
(D20). State.reset is the port with the default N and the identity the model chose (log 2). -/
def Obligations.ConstructionLeavesTheResetState : Prop :=
  construct .a 16 = .next State.reset ∧
  ∀ (id : Identity) (n : Nat),
    (1 ≤ n → n ≤ 16 → ∃ t, construct id n = .next t ∧ t.pinCount = n ∧ t.identity = id ∧
      exec .reset t = .next t ∧ Inv t ∧ Consistent t ∧ t.events = []) ∧
    (n = 0 ∨ 16 < n → construct id n = .refused (.pinCount n))

/-- After a reset a pass would change nothing and emit nothing (R184, derived by the spec), and no drive is remembered: a write
to MODER, whatever it makes an output, reports no conflict and emits no edge (R191, derived by the spec). -/
def Obligations.ResetNeedsNoPassAndForgetsDrives : Prop :=
  ∀ s : State, ∃ t u, exec .reset s = .next t ∧ exec nopw t = .next u ∧ u.port = t.port ∧ u.events = [] ∧
    ∀ v : Word, ∃ w, exec (.wrModer v) t = .next w ∧ w.events = [] ∧ w.port.idr = 0x00000000#32

/-- SAVE (R146 with D12, D23): the eleven items in their order, the vectors zero-extended; nothing changes and nothing is emitted. -/
def Obligations.SaveReturnsTheElevenItems : Prop :=
  decode [0xC01#32] = .ok .save ∧
  ∀ s : State, ∃ f, exec .save s = .next { s with events := [], result := .snapshot f } ∧
    f.f0 = s.port.moder ∧ f.f1 = s.port.otyper ∧ f.f2 = s.port.ospeedr ∧ f.f3 = s.port.pupdr ∧ f.f4 = s.port.idr ∧
    f.f5 = s.port.odr ∧ f.f6 = s.port.lckr ∧ f.f7 = s.port.afrl ∧ f.f8 = s.port.afrh ∧
    (∀ j, f.f9.getLsbD j = s.port.ovrEn.getLsbD j) ∧ (∀ j, f.f10.getLsbD j = s.port.ovrVal.getLsbD j)

/-- RESTORE (R147 with D13): all eleven items as the snapshot has them, IDR among them, bits `[31:N]` of the two masks ignored;
no pass, no event. -/
def Obligations.RestoreOverwritesEverything : Prop :=
  ∀ (s : State) (f : Snapshot),
    decode [0xC02#32, f.f0, f.f1, f.f2, f.f3, f.f4, f.f5, f.f6, f.f7, f.f8, f.f9, f.f10] = .ok (.restore f) ∧
    ∃ t, exec (.restore f) s = .next t ∧
      t.port.moder = f.f0 ∧ t.port.otyper = f.f1 ∧ t.port.ospeedr = f.f2 ∧ t.port.pupdr = f.f3 ∧ t.port.idr = f.f4 ∧
      t.port.odr = f.f5 ∧ t.port.lckr = f.f6 ∧ t.port.afrl = f.f7 ∧ t.port.afrh = f.f8 ∧
      (∀ j, j < 16 → t.port.ovrEn.getLsbD j = (decide (j < s.pinCount) && f.f9.getLsbD j)) ∧
      (∀ j, j < 16 → t.port.ovrVal.getLsbD j = (decide (j < s.pinCount) && f.f10.getLsbD j)) ∧
      t.events = [] ∧ t.result = .noValue ∧ SameSides s t

/-- The round trip (R149, derived by the spec): restoring a save on any port of the same N gives the whole saved state; saving a
restore gives the snapshot back exactly when the masks' bits `[31:N]` are zero. -/
def Obligations.SnapshotRoundTrip : Prop :=
  (∀ s : State, VectorsInRange s → ∃ t f, exec .save s = .next t ∧ t.result = .snapshot f ∧
    ∀ r : State, r.pinCount = s.pinCount → ∃ u, exec (.restore f) r = .next u ∧ u.port = s.port) ∧
  (∀ (s : State) (f : Snapshot), s.pinCount ≤ 16 →
    ((∃ t u, exec (.restore f) s = .next t ∧ exec .save t = .next u ∧ u.result = .snapshot f) ↔
      ∀ j, s.pinCount ≤ j → f.f9.getLsbD j = false ∧ f.f10.getLsbD j = false))

/-- The stale IDR (R148, derived by the spec): after a restore IDR is the persisted word; the next trigger recomputes every pin,
emits an edge for each Output pin whose level differs from the persisted bit, and keeps bits `[31:N]`; an operation that is no
trigger keeps the word. -/
def Obligations.StaleIdrLastsUntilTheNextTrigger : Prop :=
  ∀ (s : State) (f : Snapshot), ∃ t, exec (.restore f) s = .next t ∧ t.port.idr = f.f4 ∧
    (∀ w, isTrigger w = true → withinContract s.pinCount w = true → ∃ u, exec w t = .next u ∧
      (∀ i, i < s.pinCount → u.port.idr.getLsbD i = resolvedLevel u.port i) ∧
      (∀ i, s.pinCount ≤ i → u.port.idr.getLsbD i = f.f4.getLsbD i) ∧
      ∀ i b, Event.edge i b ∈ u.events ↔
        i < s.pinCount ∧ IsOutput u.port i ∧ b = resolvedLevel u.port i ∧ b ≠ f.f4.getLsbD i) ∧
    (∀ w, isTrigger w = false → overwritesAll w = false → ∃ u, exec w t = .next u ∧ u.port.idr = f.f4)

-- ==== The resolution pass (41_pin_resolver.md, 42_edge_notifier.md) ====

/-- The level function on its 128 input combinations, and the conflict column, as R115's table and formula give them. -/
def Obligations.LevelFunctionTable : Prop :=
  ∀ (mode pull : BitVec 2) (requested overridden ovalue : Bool),
    level (modeOf mode) (pullOf pull) requested overridden ovalue =
      (if overridden = true then ovalue else if mode = 1#2 then requested else decide (pull = 1#2)) ∧
    (conflicts (modeOf mode) overridden = true ↔ overridden = true ∧ mode = 1#2)

/-- The precedence of R113 and the write-back of R116: override, then Output's requested level, then pull-up; only IDR's bits of
pins are written, and no other register. -/
def Obligations.PassWritesResolvedLevels : Prop :=
  ∀ (n : Nat) (p : Port),
    (resolvePass n p).1 = { p with idr := (resolvePass n p).1.idr } ∧
    ∀ i, i < 32 →
      (i < n → p.ovrEn.getLsbD i = true → (resolvePass n p).1.idr.getLsbD i = p.ovrVal.getLsbD i) ∧
      (i < n → p.ovrEn.getLsbD i = false → IsOutput p i → (resolvePass n p).1.idr.getLsbD i = p.odr.getLsbD i) ∧
      (i < n → p.ovrEn.getLsbD i = false → ¬IsOutput p i →
        (resolvePass n p).1.idr.getLsbD i = decide (p.pupdr.extractLsb' (2 * i) 2 = 1#2)) ∧
      (n ≤ i → (resolvePass n p).1.idr.getLsbD i = p.idr.getLsbD i)

/-- The exact condition of an edge (R126): `b` is the new IDR bit and the complement of the old one. -/
def Obligations.EdgeExactlyOnOutputChange : Prop :=
  ∀ (n : Nat) (p : Port) (i : Nat) (b : Bool),
    (Event.edge i b ∈ (resolvePass n p).2 ↔ i < n ∧ IsOutput p i ∧
      b = (resolvePass n p).1.idr.getLsbD i ∧ (resolvePass n p).1.idr.getLsbD i ≠ p.idr.getLsbD i) ∧
    (Event.edge i b ∈ (resolvePass n p).2 → b = !p.idr.getLsbD i)

/-- The conflict check (R112): on the mode and the override bit alone, whatever the levels, again on the next pass, and the
override value still wins. -/
def Obligations.ConflictExactlyOnOverriddenOutput : Prop :=
  ∀ (n : Nat) (p : Port) (i : Nat),
    (Event.diag (.driveConflict i) ∈ (resolvePass n p).2 ↔ i < n ∧ IsOutput p i ∧ p.ovrEn.getLsbD i = true) ∧
    (Event.diag (.driveConflict i) ∈ (resolvePass n p).2 →
      (resolvePass n p).1.idr.getLsbD i = p.ovrVal.getLsbD i ∧
      (resolvePass n p).1 = { p with idr := (resolvePass n p).1.idr } ∧
      Event.diag (.driveConflict i) ∈ (resolvePass n (resolvePass n p).1).2)

/-- Idempotence (R120, derived by the spec): a second pass changes nothing and emits no edge, but repeats the conflicts. -/
def Obligations.PassIsIdempotent : Prop :=
  ∀ (n : Nat) (p : Port),
    (resolvePass n (resolvePass n p).1).1 = (resolvePass n p).1 ∧
    (∀ i b, Event.edge i b ∉ (resolvePass n (resolvePass n p).1).2) ∧
    ∀ i, Event.diag (.driveConflict i) ∈ (resolvePass n (resolvePass n p).1).2 ↔
      Event.diag (.driveConflict i) ∈ (resolvePass n p).2

/-- The order of the pins does not matter to the final state, only to the order of the trace (R118, derived by the spec). -/
def Obligations.PassOrderIsImmaterial : Prop :=
  ∀ (n : Nat) (p : Port) (pins : List Nat), pins.Perm (List.range n) →
    (resolvePins pins p).1 = (resolvePass n p).1 ∧ (resolvePins pins p).2.Perm (resolvePass n p).2

/-- Every operation's trace is in ascending pin order, a pin's conflict before its edge, each event once: the order across pins
is the spec's own choice D4. -/
def Obligations.TracesAreInPinOrder : Prop :=
  ∀ (i : Instr) (s t : State), exec i s = .next t → InPinOrder t.events

/-- At most one edge for a pin and at most N in all, each naming a pin of the port whose level changed (R127). -/
def Obligations.AtMostOneEdgePerPin : Prop :=
  ∀ (i : Instr) (s t : State), exec i s = .next t →
    (t.events.filterMap edgePin).Nodup ∧ (t.events.filterMap edgePin).length ≤ s.pinCount ∧
    ∀ p, p ∈ t.events.filterMap edgePin → p < s.pinCount ∧ t.port.idr.getLsbD p ≠ s.port.idr.getLsbD p

/-- While a pin is in Output mode and overridden, every trigger of any kind reports its conflict again (R196). -/
def Obligations.ConflictRepeatsOnEveryTrigger : Prop :=
  ∀ (w : Instr) (s : State) (i : Nat), isTrigger w = true → withinContract s.pinCount w = true → i < s.pinCount →
    ∃ t, exec w s = .next t ∧
      (IsOutput t.port i → t.port.ovrEn.getLsbD i = true → Event.diag (.driveConflict i) ∈ t.events)

/-- What a program can tell of an override from the registers after a pass (R29, derived by the spec). -/
def Obligations.IndirectlyVisibleOverride : Prop :=
  ∀ (w : Instr) (s t : State) (i : Nat), isTrigger w = true → exec w s = .next t → i < s.pinCount →
    (IsOutput t.port i → t.port.idr.getLsbD i ≠ t.port.odr.getLsbD i →
      t.port.ovrEn.getLsbD i = true ∧ t.port.ovrVal.getLsbD i = t.port.idr.getLsbD i) ∧
    (¬IsOutput t.port i → t.port.idr.getLsbD i ≠ decide (t.port.pupdr.extractLsb' (2 * i) 2 = 1#2) →
      t.port.ovrEn.getLsbD i = true ∧ t.port.ovrVal.getLsbD i = t.port.idr.getLsbD i)

/-- ODR is invisible outside Output mode and the pull inside it, until the mode changes (R194), on a port whose IDR is
consistent. -/
def Obligations.RequestedLevelAndPullAreHidden : Prop :=
  ∀ (s : State) (v m : Word) (i : Nat), Consistent s → i < s.pinCount → s.port.ovrEn.getLsbD i = false →
    (¬IsOutput s.port i → ∃ t u, exec (.wrOdr v) s = .next t ∧
      t.port.idr.getLsbD i = s.port.idr.getLsbD i ∧ (∀ b, Event.edge i b ∉ t.events) ∧
      exec (.wrModer m) t = .next u ∧
      (m.extractLsb' (2 * i) 2 = 1#2 → u.port.idr.getLsbD i = v.getLsbD i)) ∧
    (IsOutput s.port i → ∃ t u, exec (.wrPupdr v) s = .next t ∧
      t.port.idr.getLsbD i = s.port.idr.getLsbD i ∧ (∀ b, Event.edge i b ∉ t.events) ∧
      exec (.wrModer m) t = .next u ∧
      (m.extractLsb' (2 * i) 2 ≠ 1#2 → u.port.idr.getLsbD i = decide (v.extractLsb' (2 * i) 2 = 1#2)))

-- ==== Invariants and whole-machine rules ====

/-- Every step keeps the invariant: N in `1..16`, override vectors of N bits, a trace of the port's own pins in order. The
vectors' form is the model's (log 3), the order is D4. -/
def Obligations.StepKeepsTheInvariant : Prop :=
  ∀ s t : State, Inv s → step s = .next t → Inv t

/-- The state after reset meets the invariant and is consistent (R22). -/
def Obligations.ResetMeetsTheInvariant : Prop :=
  Inv State.reset ∧ Consistent State.reset

/-- Consistency of IDR (R22, derived by the spec): every operation but RESTORE keeps it, and a trigger or RESET establishes it. -/
def Obligations.ConsistencyIsLostOnlyByRestore : Prop :=
  ∀ (i : Instr) (s t : State), exec i s = .next t → (∀ f, i ≠ .restore f) →
    Consistent s ∨ isTrigger i = true ∨ i = .reset → Consistent t

/-- Nothing outside the five registers OTYPER, OSPEEDR, LCKR, AFRL, AFRH depends on them as a group (derived from R111): two
ports that differ in these five alone give the same levels, events and results on every operation, but for reading the five back.
What the five do to each other is not said here. -/
def Obligations.StoredOnlyRegistersAreDecorative : Prop :=
  ∀ (i : Instr) (s : State) (q : Port), AgreeOnResolver s.port q →
    (∃ r, exec i s = .refused r ∧ exec i { s with port := q } = .refused r) ∨
    (∃ t u, exec i s = .next t ∧ exec i { s with port := q } = .next u ∧
      AgreeOnResolver t.port u.port ∧ t.events = u.events ∧ (readsStoredOnly i = false → t.result = u.result))

/-- Two ports that differ only in ID behave identically under every sequence of operations (R182, derived by the spec). -/
def Obligations.IdentityHasNoEffect : Prop :=
  ∀ (k : Nat) (s : State) (id : Identity),
    Sys2Proof.core.run k { s with identity := id } = withIdentity id (Sys2Proof.core.run k s)

/-- The "Written by" column of R10's table, for every operation but RESET and RESTORE. -/
def Obligations.OnlyItsOwnWritesChangeARegister : Prop :=
  ∀ (i : Instr) (s t : State), exec i s = .next t → overwritesAll i = false →
    (t.port.moder ≠ s.port.moder → i = .wrModer t.port.moder) ∧
    (t.port.otyper ≠ s.port.otyper → i = .wrOtyper t.port.otyper) ∧
    (t.port.ospeedr ≠ s.port.ospeedr → i = .wrOspeedr t.port.ospeedr) ∧
    (t.port.pupdr ≠ s.port.pupdr → i = .wrPupdr t.port.pupdr) ∧
    (t.port.idr ≠ s.port.idr → isTrigger i = true) ∧
    (t.port.odr ≠ s.port.odr → i = .wrOdr t.port.odr ∨ ∃ v, i = .wrBsrr v) ∧
    (t.port.lckr ≠ s.port.lckr → i = .wrLckr t.port.lckr) ∧
    (t.port.afrl ≠ s.port.afrl → i = .wrAfrl t.port.afrl) ∧
    (t.port.afrh ≠ s.port.afrh → i = .wrAfrh t.port.afrh) ∧
    (t.port.ovrEn ≠ s.port.ovrEn → ∃ p, linePin i = some p) ∧
    (t.port.ovrVal ≠ s.port.ovrVal → ∃ p, i = .lineLow p ∨ i = .lineHigh p)

/-- Bits `[31:N]` of IDR are written by RESET and RESTORE only (R15; D26). -/
def Obligations.IdrBitsOfNoPinAreKept : Prop :=
  ∀ (i : Instr) (s t : State), exec i s = .next t → overwritesAll i = false →
    ∀ j, s.pinCount ≤ j → t.port.idr.getLsbD j = s.port.idr.getLsbD j

/-- An edge comes from a trigger alone, for a pin of the port in Output mode, with the new level, which differs from the old (R125,
R161). -/
def Obligations.EdgesComeOnlyFromOutputPins : Prop :=
  ∀ (i : Instr) (s t : State) (p : Nat) (b : Bool), exec i s = .next t → Event.edge p b ∈ t.events →
    isTrigger i = true ∧ p < s.pinCount ∧ IsOutput t.port p ∧ t.port.idr.getLsbD p = b ∧ s.port.idr.getLsbD p = !b

/-- A BadOffset comes alone and with no change of state, so no operation reports it together with a conflict or an edge (R163,
derived by the spec). -/
def Obligations.BadOffsetComesAlone : Prop :=
  ∀ (i : Instr) (s t : State) (d : Diag), exec i s = .next t → Event.diag d ∈ t.events →
    (∀ p, d ≠ .driveConflict p) → t.events = [.diag d] ∧ t.port = s.port

/-- The two refusals of `step` that stand beside the contract's calls: a packet that decodes to nothing is refused with the
decoder's reason (R68; packets are log 5's), and a call in the integer form with a described level (R140) on a pin outside `[0, N)`
is the configuration error it is in the enumeration form (D10). -/
def Obligations.UndecodablePacketsAndIntegerPinsAreRefused : Prop :=
  ∀ (s : State) (rest : List Request),
    (∀ ws e, decode ws = .error e → s.pending = .words ws :: rest → step s = .refused (.notAnOperation e)) ∧
    (∀ p l : Int, l ≤ 1 → p < 0 ∨ (s.pinCount : Int) ≤ p → s.pending = .setLevel p l :: rest →
      step s = .refused (.configurationError p))

/-- R200, register by register: with another word in any one of the five, every operation is refused alike, or leaves the same
state but for that register (the other four and what they read back among it) and returns the same but for that register's own
read and its field of a snapshot. And LCKR locks nothing: after a write of any word to it, a write to each of the eight registers a
bus write stores to takes effect. -/
def Obligations.LockAndElectricalRegistersChangeOnlyTheirReadBack : Prop :=
  (∀ (r : StoredOnly) (v : Word) (i : Instr) (s : State),
    (∃ e, exec i s = .refused e ∧ exec i { s with port := r.put v s.port } = .refused e) ∨
    (∃ t u, exec i s = .next t ∧ exec i { s with port := r.put v s.port } = .next u ∧
      u = { t with port := u.port, result := u.result } ∧ (u.port = t.port ∨ u.port = r.put v t.port) ∧
      (i ≠ r.read → i ≠ .save → u.result = t.result) ∧
      (i = r.read → u.result = .value v) ∧
      (i = .save → ∃ f, t.result = .snapshot f ∧ u.result = .snapshot (r.putField v f)))) ∧
  (∀ (s : State) (v x : Word) (w : Instr) (register : Port → Word),
    (w, register) ∈ [(Instr.wrModer x, Port.moder), (.wrOtyper x, Port.otyper), (.wrOspeedr x, Port.ospeedr),
      (.wrPupdr x, Port.pupdr), (.wrOdr x, Port.odr), (.wrLckr x, Port.lckr), (.wrAfrl x, Port.afrl), (.wrAfrh x, Port.afrh)] →
    ∃ t u, exec (.wrLckr v) s = .next t ∧ exec w t = .next u ∧ register u.port = x)
end

