-- ==== Sys2Proof/Laws/Decode.lean ====
section
/-! SUPPORT. The decoder on a packet (spec R67) and the register map (R41). -/

namespace Sys2Proof.Laws

theorem packet_high (sel : BitVec 12) : (sel.setWidth 32).extractLsb' 12 20 = 0#20 := by
  ext i hi
  simp

theorem packet_low (sel : BitVec 12) : (sel.setWidth 32).setWidth 12 = sel := by simp

/-- A packet is decoded by its selector. -/
theorem decode_packet (sel : BitVec 12) (data : List Word) : decode (packet sel data) = decodeSelector sel data := by
  simp only [decode, packet]
  rw [if_neg (not_not_intro (packet_high sel)), packet_low]

/-- A word with no bit above the selector's twelve is the first word of a packet. -/
theorem packet_of_high {w : Word} (h : w.extractLsb' 12 20 = 0#20) : (w.setWidth 12).setWidth 32 = w := by
  apply BitVec.eq_of_getLsbD_eq
  intro i hi
  have hk := congrArg (fun x : BitVec 20 => x.getLsbD (i - 12)) h
  simp only [BitVec.getLsbD_extractLsb', BitVec.getLsbD_zero] at hk
  by_cases h12 : i < 12
  · simp [h12, hi]
  · have he : 12 + (i - 12) = i := by omega
    have h20 : i - 12 < 20 := by omega
    rw [he] at hk
    have hw : w.getLsbD i = false := by simpa [h20] using hk
    rw [BitVec.getLsbD_setWidth, BitVec.getLsbD_setWidth, hw]
    simp

theorem registerAt_offsetOf (r : RegName) : registerAt (offsetOf r) = some r := by cases r <;> rfl

/-- The offset a register is found at is its own. -/
theorem offsetOf_of_registerAt {off : Offset} {r : RegName} (h : registerAt off = some r) : offsetOf r = off := by
  unfold registerAt at h
  repeat' split at h
  all_goals first | (cases h; subst_vars; rfl) | cases h

/-- The unknown offsets are those outside the ten of R91. -/
theorem registerAt_eq_none (off : Offset) : registerAt off = none ↔ off ∉ definedOffsets := by
  unfold registerAt definedOffsets
  repeat' split
  all_goals simp_all

theorem class_append (c : BitVec 2) (off : Offset) : BitVec.extractLsb' 10 2 (c ++ off) = c := by
  apply BitVec.eq_of_getLsbD_eq
  intro i hi
  rw [BitVec.getLsbD_extractLsb', BitVec.getLsbD_append]
  simp [hi]

theorem offset_append (c : BitVec 2) (off : Offset) : BitVec.extractLsb' 0 10 (c ++ off) = off := by
  apply BitVec.eq_of_getLsbD_eq
  intro i hi
  rw [BitVec.getLsbD_extractLsb', BitVec.getLsbD_append]
  simp [hi]

@[simp] theorem selClass_readSel (off : Offset) : selClass (readSel off) = 0#2 := by
  exact class_append 0#2 off

@[simp] theorem selClass_writeSel (off : Offset) : selClass (writeSel off) = 1#2 := by
  exact class_append 1#2 off

@[simp] theorem selOffset_readSel (off : Offset) : selOffset (readSel off) = off := by
  exact offset_append 0#2 off

@[simp] theorem selOffset_writeSel (off : Offset) : selOffset (writeSel off) = off := by
  exact offset_append 1#2 off

@[simp] theorem selClass_lineSel (v : LineValue) (p : PinOperand) : selClass (lineSel v p) = 2#2 := by
  revert p; cases v <;> decide

@[simp] theorem selPin_lineSel (v : LineValue) (p : PinOperand) : selPin (lineSel v p) = p := by
  revert p; cases v <;> decide

/-- The first word of a bus read's packet is its offset. -/
theorem readSel_word (off : Offset) : (readSel off).setWidth 32 = off.setWidth 32 := by
  show BitVec.setWidth 32 (0#2 ++ off) = _
  revert off; decide

/-- The first word of a bus write's packet is its offset with bit 10 set. -/
theorem writeSel_word (off : Offset) : (writeSel off).setWidth 32 = 0x400#32 ||| off.setWidth 32 := by
  show BitVec.setWidth 32 (1#2 ++ off) = _
  revert off; decide

/-- A bus read's packet (R67 (2)). -/
theorem decode_readSel (off : Offset) : decode (packet (readSel off) []) = .ok (readAt off) := by
  rw [decode_packet, decodeSelector, selClass_readSel, selOffset_readSel]; rfl

/-- A bus write's packet (R67 (2)). -/
theorem decode_writeSel (off : Offset) (v : Word) : decode (packet (writeSel off) [v]) = .ok (writeAt off v) := by
  rw [decode_packet, decodeSelector, selClass_writeSel, selOffset_writeSel]; rfl

theorem decode_readWord (off : Offset) : decode [off.setWidth 32] = .ok (readAt off) := by
  rw [← readSel_word]; exact decode_readSel off

theorem decode_writeWord (off : Offset) (v : Word) :
    decode [0x400#32 ||| off.setWidth 32, v] = .ok (writeAt off v) := by
  rw [← writeSel_word]; exact decode_writeSel off v

theorem readAt_unknown {off : Offset} (h : off ∉ definedOffsets) : readAt off = .rdUnknown off := by
  rw [readAt, (registerAt_eq_none off).2 h]

theorem writeAt_unknown {off : Offset} (h : off ∉ definedOffsets) (v : Word) : writeAt off v = .wrUnknown off v := by
  rw [writeAt, (registerAt_eq_none off).2 h]

/-- What a bus read decodes to is an operation of the table, and its packet is the read's. -/
theorem encode_readAt (off : Offset) : WellFormed (readAt off) ∧ encode (readAt off) = packet (readSel off) [] := by
  unfold readAt
  cases h : registerAt off with
  | none => exact ⟨by simpa [WellFormed, wellFormed] using (registerAt_eq_none off).1 h, rfl⟩
  | some r => rw [← offsetOf_of_registerAt h]; cases r <;> exact ⟨rfl, rfl⟩

/-- What a bus write decodes to is an operation of the table, and its packet is the write's. -/
theorem encode_writeAt (off : Offset) (v : Word) :
    WellFormed (writeAt off v) ∧ encode (writeAt off v) = packet (writeSel off) [v] := by
  unfold writeAt
  cases h : registerAt off with
  | none => exact ⟨by simpa [WellFormed, wellFormed] using (registerAt_eq_none off).1 h, rfl⟩
  | some r => rw [← offsetOf_of_registerAt h]; cases r <;> exact ⟨rfl, rfl⟩

theorem withoutData_ok {sel : BitVec 12} {i j : Instr} {data : List Word} (h : withoutData sel i data = .ok j) :
    i = j ∧ data = [] := by
  cases data with
  | nil => cases h; exact ⟨rfl, rfl⟩
  | cons => cases h

theorem withWord_ok {sel : BitVec 12} {f : Word → Instr} {j : Instr} {data : List Word}
    (h : withWord sel f data = .ok j) : ∃ v, data = [v] ∧ f v = j := by
  unfold withWord at h
  split at h
  · cases h; exact ⟨_, rfl, rfl⟩
  · cases h

theorem withSnapshot_ok {sel : BitVec 12} {j : Instr} {data : List Word} (h : withSnapshot sel data = .ok j) :
    ∃ f, data = snapshotWords f ∧ j = .restore f := by
  unfold withSnapshot at h
  split at h
  · cases h; exact ⟨_, rfl, rfl⟩
  · cases h

/-- A selector is its class and its low ten bits (R61). -/
theorem selector_eq_bus (sel : BitVec 12) : selClass sel ++ selOffset sel = sel := by
  apply BitVec.eq_of_getLsbD_eq
  intro i hi
  rw [BitVec.getLsbD_append, selClass, selOffset, BitVec.getLsbD_extractLsb', BitVec.getLsbD_extractLsb']
  by_cases h : i < 10
  · simp [h]
  · have h2 : i - 10 < 2 := by omega
    simp [h, h2]
    congr 1; omega

/-- A line event's selector is its level and its pin (R61). -/
theorem selector_eq_line : ∀ sel : BitVec 12, selClass sel = 2#2 → sel.extractLsb' 6 4 = 0#4 →
    2#2 ++ 0#4 ++ sel.extractLsb' 4 2 ++ selPin sel = sel := by decide +revert

/-- A system operation's selector is its number (R61). -/
theorem selector_eq_system : ∀ sel : BitVec 12, selClass sel = 3#2 → sel.extractLsb' 2 8 = 0#8 →
    3#2 ++ 0#8 ++ sel.extractLsb' 0 2 = sel := by decide +revert

/-- The first word of a line event's packet, as R61 writes it. -/
theorem lineSel_word (v : LineValue) (p : PinOperand) :
    (lineSel v p).setWidth 32 =
      (match v with | .driveLow => 0x800#32 | .driveHigh => 0x810#32 | .release => 0x820#32) + p.setWidth 32 := by
  revert p; cases v <;> decide

/-- A line event's packet (R67 (3)). -/
theorem decode_lineSel (v : LineValue) (p : PinOperand) :
    decode (packet (lineSel v p) []) = .ok (match v with
      | .driveLow => .lineLow p
      | .driveHigh => .lineHigh p
      | .release => .lineRelease p) := by
  rw [decode_packet, decodeSelector, selClass_lineSel]
  revert p; cases v <;> decide

end Sys2Proof.Laws
end

