-- ==== Sys2Proof/Laws/State.lean ====
section
/-! SUPPORT. One lemma per field for each named update of the state, true by unfolding it once. -/

namespace Sys2Proof.Laws

open Sys2Proof.Machine

section
variable (p : Port) (i : Nat) (b : Bool) (s : State) (nbits w : Nat) (id : Identity) (n : Nat) (f : Snapshot)

@[simp] theorem drive_moder : (drive p i b).moder = p.moder := rfl
@[simp] theorem drive_otyper : (drive p i b).otyper = p.otyper := rfl
@[simp] theorem drive_ospeedr : (drive p i b).ospeedr = p.ospeedr := rfl
@[simp] theorem drive_pupdr : (drive p i b).pupdr = p.pupdr := rfl
@[simp] theorem drive_idr : (drive p i b).idr = p.idr := rfl
@[simp] theorem drive_odr : (drive p i b).odr = p.odr := rfl
@[simp] theorem drive_lckr : (drive p i b).lckr = p.lckr := rfl
@[simp] theorem drive_afrl : (drive p i b).afrl = p.afrl := rfl
@[simp] theorem drive_afrh : (drive p i b).afrh = p.afrh := rfl
@[simp] theorem drive_ovrEn : (drive p i b).ovrEn = setBit p.ovrEn i true := rfl
@[simp] theorem drive_ovrVal : (drive p i b).ovrVal = setBit p.ovrVal i b := rfl

@[simp] theorem release_moder : (release p i).moder = p.moder := rfl
@[simp] theorem release_otyper : (release p i).otyper = p.otyper := rfl
@[simp] theorem release_ospeedr : (release p i).ospeedr = p.ospeedr := rfl
@[simp] theorem release_pupdr : (release p i).pupdr = p.pupdr := rfl
@[simp] theorem release_idr : (release p i).idr = p.idr := rfl
@[simp] theorem release_odr : (release p i).odr = p.odr := rfl
@[simp] theorem release_lckr : (release p i).lckr = p.lckr := rfl
@[simp] theorem release_afrl : (release p i).afrl = p.afrl := rfl
@[simp] theorem release_afrh : (release p i).afrh = p.afrh := rfl
@[simp] theorem release_ovrVal : (release p i).ovrVal = p.ovrVal := rfl
@[simp] theorem release_ovrEn : (release p i).ovrEn = setBit p.ovrEn i false := rfl

@[simp] theorem resolvePin_moder : (resolvePin i p).1.moder = p.moder := rfl
@[simp] theorem resolvePin_otyper : (resolvePin i p).1.otyper = p.otyper := rfl
@[simp] theorem resolvePin_ospeedr : (resolvePin i p).1.ospeedr = p.ospeedr := rfl
@[simp] theorem resolvePin_pupdr : (resolvePin i p).1.pupdr = p.pupdr := rfl
@[simp] theorem resolvePin_odr : (resolvePin i p).1.odr = p.odr := rfl
@[simp] theorem resolvePin_lckr : (resolvePin i p).1.lckr = p.lckr := rfl
@[simp] theorem resolvePin_afrl : (resolvePin i p).1.afrl = p.afrl := rfl
@[simp] theorem resolvePin_afrh : (resolvePin i p).1.afrh = p.afrh := rfl
@[simp] theorem resolvePin_ovrEn : (resolvePin i p).1.ovrEn = p.ovrEn := rfl
@[simp] theorem resolvePin_ovrVal : (resolvePin i p).1.ovrVal = p.ovrVal := rfl
@[simp] theorem resolvePin_idr : (resolvePin i p).1.idr = setBit p.idr i (pinLevel p i) := rfl
@[simp] theorem resolvePin_events : (resolvePin i p).2 = pinEvents p i := rfl

@[simp] theorem zero_moder : Port.zero.moder = 0 := rfl
@[simp] theorem zero_otyper : Port.zero.otyper = 0 := rfl
@[simp] theorem zero_ospeedr : Port.zero.ospeedr = 0 := rfl
@[simp] theorem zero_pupdr : Port.zero.pupdr = 0 := rfl
@[simp] theorem zero_idr : Port.zero.idr = 0 := rfl
@[simp] theorem zero_odr : Port.zero.odr = 0 := rfl
@[simp] theorem zero_lckr : Port.zero.lckr = 0 := rfl
@[simp] theorem zero_afrl : Port.zero.afrl = 0 := rfl
@[simp] theorem zero_afrh : Port.zero.afrh = 0 := rfl
@[simp] theorem zero_ovrEn : Port.zero.ovrEn = 0 := rfl
@[simp] theorem zero_ovrVal : Port.zero.ovrVal = 0 := rfl

@[simp] theorem portOf_moder : (portOf n f).moder = f.f0 := rfl
@[simp] theorem portOf_otyper : (portOf n f).otyper = f.f1 := rfl
@[simp] theorem portOf_ospeedr : (portOf n f).ospeedr = f.f2 := rfl
@[simp] theorem portOf_pupdr : (portOf n f).pupdr = f.f3 := rfl
@[simp] theorem portOf_idr : (portOf n f).idr = f.f4 := rfl
@[simp] theorem portOf_odr : (portOf n f).odr = f.f5 := rfl
@[simp] theorem portOf_lckr : (portOf n f).lckr = f.f6 := rfl
@[simp] theorem portOf_afrl : (portOf n f).afrl = f.f7 := rfl
@[simp] theorem portOf_afrh : (portOf n f).afrh = f.f8 := rfl
@[simp] theorem portOf_ovrEn : (portOf n f).ovrEn = lowBits n f.f9 := rfl
@[simp] theorem portOf_ovrVal : (portOf n f).ovrVal = lowBits n f.f10 := rfl

@[simp] theorem constructed_pinCount : (State.constructed id n).pinCount = n := rfl
@[simp] theorem constructed_identity : (State.constructed id n).identity = id := rfl
@[simp] theorem constructed_port : (State.constructed id n).port = Port.zero := rfl
@[simp] theorem constructed_pending : (State.constructed id n).pending = [] := rfl
@[simp] theorem constructed_events : (State.constructed id n).events = [] := rfl
@[simp] theorem constructed_result : (State.constructed id n).result = .noValue := rfl

@[simp] theorem withFetchWord_pinCount : (s.withFetchWord nbits w).pinCount = s.pinCount := rfl
@[simp] theorem withFetchWord_identity : (s.withFetchWord nbits w).identity = s.identity := rfl
@[simp] theorem withFetchWord_port : (s.withFetchWord nbits w).port = s.port := rfl
@[simp] theorem withFetchWord_events : (s.withFetchWord nbits w).events = s.events := rfl
@[simp] theorem withFetchWord_result : (s.withFetchWord nbits w).result = s.result := rfl
@[simp] theorem withFetchWord_pending : (s.withFetchWord nbits w).pending = .words (tablePacket nbits w) :: s.pending := rfl
end

end Sys2Proof.Laws
end

