-- ==== Sys2Proof/Laws/Operands.lean ====
section
/-! SUPPORT. The operand forms bit by bit: bit writes (spec R7), the fields' named values (R64), BSRR (R99) and the mask words of
a snapshot (R147). -/

namespace Sys2Proof.Laws

open Sys2Proof.Machine Sys2Proof.Safety

theorem setBit_getLsbD {w : Nat} (v : BitVec w) (i j : Nat) (b : Bool) :
    (setBit v i b).getLsbD j = if j = i ∧ j < w then b else v.getLsbD j := by
  by_cases hj : j < w
  · by_cases h : j = i
    · subst h; cases b <;> simp [setBit, hj]
    · cases b <;> simp [setBit, h, hj]
  · rw [if_neg fun h => hj h.2, BitVec.getLsbD_of_ge _ _ (by omega), BitVec.getLsbD_of_ge _ _ (by omega)]

@[simp] theorem modeOf_eq_output (f : BitVec 2) : modeOf f = .output ↔ f = 1#2 := by revert f; decide

@[simp] theorem pullOf_eq_up (f : BitVec 2) : pullOf f = .up ↔ f = 1#2 := by revert f; decide

theorem pinMode_eq_output (p : Port) (i : Nat) : pinMode p i = .output ↔ IsOutput p i := modeOf_eq_output _

theorem bsrrMask_getLsbD (k : Nat) : bsrrMask.getLsbD k = decide (k < 16) := by
  by_cases hk : k < 32
  · interval_cases k <;> rfl
  · rw [BitVec.getLsbD_of_ge _ _ (by omega)]; simp; omega

theorem bsrrSet_getLsbD (v : Word) (k : Nat) : (bsrrSet v).getLsbD k = (v.getLsbD k && decide (k < 16)) := by
  rw [bsrrSet, BitVec.getLsbD_and, bsrrMask_getLsbD]

theorem bsrrClr_getLsbD (v : Word) (k : Nat) : (bsrrClr v).getLsbD k = (v.getLsbD (16 + k) && decide (k < 16)) := by
  rw [bsrrClr, BitVec.getLsbD_and, bsrrMask_getLsbD, BitVec.getLsbD_ushiftRight]

/-- The table of R99, bit by bit. -/
theorem bsrrUpdate_getLsbD (odr v : Word) (k : Nat) :
    (bsrrUpdate odr v).getLsbD k =
      if k < 16 then (if v.getLsbD k then true else if v.getLsbD (16 + k) then false else odr.getLsbD k)
      else odr.getLsbD k := by
  by_cases hk : k < 32
  · rw [bsrrUpdate, BitVec.getLsbD_or, BitVec.getLsbD_and, BitVec.getLsbD_not, bsrrSet_getLsbD, bsrrClr_getLsbD]
    by_cases h : k < 16 <;> cases v.getLsbD k <;> cases v.getLsbD (16 + k) <;> simp only [h, hk] <;> simp
  · have h : ¬ k < 16 := by omega
    rw [BitVec.getLsbD_of_ge _ _ (by omega), if_neg h, BitVec.getLsbD_of_ge _ _ (by omega)]

theorem lowBits_getLsbD (n : Nat) (f : Word) (j : Nat) :
    (lowBits n f).getLsbD j = (decide (j < 16) && decide (j < n) && f.getLsbD j) := by
  rw [lowBits, BitVec.getLsbD_setWidth, BitVec.getLsbD_and, BitVec.getLsbD_ofNat, Nat.testBit_two_pow_sub_one]
  by_cases hj : j < 16
  · have h32 : j < 32 := by omega
    simp only [hj, h32]
    cases f.getLsbD j <;> simp
  · simp [hj]

/-- Bits `[31:16]` of a zero-extended vector are zero, the others its own (R146). -/
theorem extended_getLsbD (v : BitVec 16) (j : Nat) : (v.setWidth 32).getLsbD j = v.getLsbD j := by
  rw [BitVec.getLsbD_setWidth]
  by_cases h : j < 32
  · simp [h]
  · rw [BitVec.getLsbD_of_ge (w := 16) _ _ (by omega)]; simp

/-- A bit write below N keeps a vector of N bits. -/
theorem setBit_inRange {n : Nat} {v : BitVec 16} {k : Nat} {b : Bool} (hk : k < n)
    (h : ∀ i, i < 16 → n ≤ i → v.getLsbD i = false) : ∀ i, i < 16 → n ≤ i → (setBit v k b).getLsbD i = false := by
  intro i h1 h2
  rw [setBit_getLsbD, if_neg (by omega)]
  exact h i h1 h2

end Sys2Proof.Laws
end

