-- ==== Sys2Proof/Laws/Pass.lean ====
section
/-! SUPPORT. What the resolution pass can do, said once (spec R110 to R118): the port it leaves, its events, and their order. -/

namespace Sys2Proof.Laws

open Sys2Proof.Machine Sys2Proof.Safety

/-- The model's level function is R115's formula. -/
theorem pinLevel_eq (p : Port) (i : Nat) : pinLevel p i = resolvedLevel p i := by
  unfold pinLevel resolvedLevel level
  by_cases ho : p.ovrEn.getLsbD i = true
  · simp [ho]
  · by_cases hm : IsOutput p i
    · have := (pinMode_eq_output p i).2 hm
      simp [ho, this, hm, f1]
    · have h : pinMode p i ≠ .output := fun e => hm ((pinMode_eq_output p i).1 e)
      have hp : decide (pinPull p i = .up) = decide (p.pupdr.extractLsb' (2 * i) 2 = 1#2) := by simp [pinPull, f2]
      cases hc : pinMode p i <;> simp_all

theorem resolvedLevel_of_overridden {p : Port} {i : Nat} (h : p.ovrEn.getLsbD i = true) :
    resolvedLevel p i = p.ovrVal.getLsbD i := if_pos h

theorem resolvedLevel_of_output {p : Port} {i : Nat} (h : p.ovrEn.getLsbD i = false) (ho : IsOutput p i) :
    resolvedLevel p i = p.odr.getLsbD i := by
  rw [resolvedLevel, if_neg (by simp [h]), if_pos ho]

theorem resolvedLevel_of_not_output {p : Port} {i : Nat} (h : p.ovrEn.getLsbD i = false) (ho : ¬IsOutput p i) :
    resolvedLevel p i = decide (p.pupdr.extractLsb' (2 * i) 2 = 1#2) := by
  rw [resolvedLevel, if_neg (by simp [h]), if_neg ho]

/-- No pin's level depends on IDR, so none depends on another pin's turn. -/
theorem resolvedLevel_idr (p : Port) (r : Word) (i : Nat) :
    resolvedLevel { p with idr := r } i = resolvedLevel p i := rfl

theorem pinConflict_idr (p : Port) (r : Word) (i : Nat) : pinConflict { p with idr := r } i = pinConflict p i := rfl

theorem resolvePins_cons (i : Nat) (is : List Nat) (p : Port) :
    resolvePins (i :: is) p =
      ((resolvePins is (resolvePin i p).1).1, pinEvents p i ++ (resolvePins is (resolvePin i p).1).2) := rfl

/-- The pass writes no register but IDR (R116). -/
theorem resolvePins_others (is : List Nat) (p : Port) :
    (resolvePins is p).1 = { p with idr := (resolvePins is p).1.idr } := by
  induction is generalizing p with
  | nil => rfl
  | cons i is ih => rw [resolvePins_cons]; exact ih _

/-- IDR after the pass, bit by bit (R113, R116). -/
theorem resolvePins_idr (is : List Nat) (p : Port) (j : Nat) :
    (resolvePins is p).1.idr.getLsbD j = if j ∈ is ∧ j < 32 then resolvedLevel p j else p.idr.getLsbD j := by
  induction is generalizing p with
  | nil => simp [resolvePins]
  | cons i is ih =>
    rw [resolvePins_cons]
    have hl : resolvedLevel (resolvePin i p).1 j = resolvedLevel p j := rfl
    simp only [ih, hl, resolvePin_idr, setBit_getLsbD, pinLevel_eq, List.mem_cons]
    by_cases h32 : j < 32 <;> by_cases hji : j = i <;> by_cases hmem : j ∈ is <;> simp_all

/-- A turn of another pin leaves a pin's events as they are. -/
theorem pinEvents_resolvePin {i j : Nat} (h : j ≠ i) (p : Port) : pinEvents (resolvePin i p).1 j = pinEvents p j := by
  have hb : f1 (resolvePin i p).1.idr j = f1 p.idr j := by simp [f1, setBit_getLsbD, h]
  have hl : pinLevel (resolvePin i p).1 j = pinLevel p j := rfl
  have hm : pinMode (resolvePin i p).1 j = pinMode p j := rfl
  have hc : pinConflict (resolvePin i p).1 j = pinConflict p j := rfl
  rw [pinEvents, pinEvents, pinEdge, pinEdge, hb, hl, hm, hc]

/-- The trace of a pass: each pin's events, computed from the port before the pass (R118). -/
theorem resolvePins_events (is : List Nat) (p : Port) (h : is.Nodup) :
    (resolvePins is p).2 = is.flatMap (pinEvents p) := by
  induction is generalizing p with
  | nil => rfl
  | cons i is ih =>
    obtain ⟨hi, his⟩ := List.nodup_cons.1 h
    rw [resolvePins_cons, List.flatMap_cons]
    refine congrArg (pinEvents p i ++ ·) ((ih _ his).trans ?_)
    refine List.flatMap_congr fun j hj => pinEvents_resolvePin ?_ p
    rintro rfl
    exact hi hj

theorem mem_pinEvents (p : Port) (i : Nat) (e : Event) :
    e ∈ pinEvents p i ↔
      (e = .diag (.driveConflict i) ∧ IsOutput p i ∧ p.ovrEn.getLsbD i = true) ∨
      (e = .edge i (resolvedLevel p i) ∧ IsOutput p i ∧ resolvedLevel p i ≠ p.idr.getLsbD i) := by
  simp only [← pinMode_eq_output, pinEvents, List.mem_append, pinConflict, pinEdge, conflicts, edges, pinLevel_eq, f1]
  by_cases ho : pinMode p i = .output
  · cases hv : p.ovrEn.getLsbD i <;> by_cases hb : resolvedLevel p i = p.idr.getLsbD i <;> simp [ho, hb]
  · simp [ho]

/-- The events of a pass (R112, R117, R126). -/
theorem mem_resolvePass (n : Nat) (p : Port) (e : Event) :
    e ∈ (resolvePass n p).2 ↔ ∃ i, i < n ∧
      ((e = .diag (.driveConflict i) ∧ IsOutput p i ∧ p.ovrEn.getLsbD i = true) ∨
        (e = .edge i (resolvedLevel p i) ∧ IsOutput p i ∧ resolvedLevel p i ≠ p.idr.getLsbD i)) := by
  rw [resolvePass, resolvePins_events _ _ List.nodup_range]
  simp [List.mem_flatMap, mem_pinEvents]

theorem conflict_mem_resolvePass (n : Nat) (p : Port) (i : Nat) :
    Event.diag (.driveConflict i) ∈ (resolvePass n p).2 ↔ i < n ∧ IsOutput p i ∧ p.ovrEn.getLsbD i = true := by
  simp [mem_resolvePass]

theorem edge_mem_resolvePass (n : Nat) (p : Port) (i : Nat) (b : Bool) :
    Event.edge i b ∈ (resolvePass n p).2 ↔
      i < n ∧ IsOutput p i ∧ b = resolvedLevel p i ∧ b ≠ p.idr.getLsbD i := by
  rw [mem_resolvePass]
  constructor
  · rintro ⟨j, hj, ⟨h, -⟩ | ⟨h, ho, hne⟩⟩
    · cases h
    · cases h; exact ⟨hj, ho, rfl, hne⟩
  · rintro ⟨hj, ho, rfl, hne⟩
    exact ⟨i, hj, .inr ⟨rfl, ho, hne⟩⟩

theorem resolvePass_others (n : Nat) (p : Port) : (resolvePass n p).1 = { p with idr := (resolvePass n p).1.idr } :=
  resolvePins_others _ _

/-- A pin from 32 on has no bits in any register, so it resolves to low. -/
theorem resolvedLevel_of_ge (p : Port) {i : Nat} (h : 32 ≤ i) : resolvedLevel p i = false := by
  have h1 : p.ovrEn.getLsbD i = false := BitVec.getLsbD_of_ge _ _ (by omega)
  have h2 : p.odr.getLsbD i = false := BitVec.getLsbD_of_ge _ _ (by omega)
  have h3 : p.pupdr.extractLsb' (2 * i) 2 ≠ 1#2 := by
    intro e
    have := congrArg (fun x => x.getLsbD 0) e
    simp at this
    rw [BitVec.getLsbD_of_ge _ _ (by omega)] at this
    cases this
  simp [resolvedLevel, h1, h2, h3]

/-- IDR after a pass, bit by bit. -/
theorem resolvePass_idr (n : Nat) (p : Port) (j : Nat) :
    (resolvePass n p).1.idr.getLsbD j = if j < n then resolvedLevel p j else p.idr.getLsbD j := by
  rw [resolvePass, resolvePins_idr]
  simp only [List.mem_range]
  by_cases h32 : j < 32
  · simp [h32]
  · have h1 := resolvedLevel_of_ge p (i := j) (by omega)
    have h2 : p.idr.getLsbD j = false := BitVec.getLsbD_of_ge _ _ (by omega)
    simp [h32, h1, h2]

theorem resolvedLevel_resolvePass (n : Nat) (p : Port) (i : Nat) :
    resolvedLevel (resolvePass n p).1 i = resolvedLevel p i := by
  rw [resolvePass_others, resolvedLevel_idr]

theorem eventRank_pinEvents {p : Port} {i : Nat} {e : Event} (h : e ∈ pinEvents p i) :
    2 * i ≤ eventRank e ∧ eventRank e ≤ 2 * i + 1 := by
  rcases (mem_pinEvents p i e).1 h with ⟨rfl, -⟩ | ⟨rfl, -⟩ <;> simp [eventRank]

/-- One pin's events are in order: the conflict, then the edge (R117). -/
theorem pinEvents_inPinOrder (p : Port) (i : Nat) : InPinOrder (pinEvents p i) := by
  unfold InPinOrder pinEvents pinConflict pinEdge
  split <;> split <;> simp [eventRank]

/-- A pass's trace is in the order of R118. -/
theorem resolvePass_inPinOrder (n : Nat) (p : Port) : InPinOrder (resolvePass n p).2 := by
  rw [resolvePass, resolvePins_events _ _ List.nodup_range]
  refine List.pairwise_flatMap.2 ⟨fun i _ => pinEvents_inPinOrder p i, ?_⟩
  refine List.pairwise_lt_range.imp fun {i j} hij a ha b hb => ?_
  have h1 := eventRank_pinEvents ha
  have h2 := eventRank_pinEvents hb
  omega

theorem InPinOrder.nodup {es : List Event} (h : InPinOrder es) : es.Nodup :=
  h.imp fun {a b} hab e => by subst e; omega

/-- An event stands once in a pass's trace, or not at all (R112, R127). -/
theorem count_resolvePass (n : Nat) (p : Port) (e : Event) :
    (resolvePass n p).2.count e = if e ∈ (resolvePass n p).2 then 1 else 0 := by
  split
  · exact List.count_eq_one_of_mem (resolvePass_inPinOrder n p).nodup ‹_›
  · exact List.count_eq_zero_of_not_mem ‹_›

/-- A pass from a consistent port changes nothing and emits no edge (R120, R22). -/
theorem resolvePass_consistent {n : Nat} {p : Port} (h : ∀ i, i < n → p.idr.getLsbD i = resolvedLevel p i) :
    (resolvePass n p).1 = p ∧ ∀ i b, Event.edge i b ∉ (resolvePass n p).2 := by
  constructor
  · rw [resolvePass_others]
    have : (resolvePass n p).1.idr = p.idr := by
      refine BitVec.eq_of_getLsbD_eq fun i _ => ?_
      rw [resolvePass_idr]
      split
      · exact (h i ‹_›).symm
      · rfl
    rw [this]
  · intro i b hmem
    obtain ⟨hi, -, rfl, hne⟩ := (edge_mem_resolvePass n p i b).1 hmem
    exact hne (h i hi).symm

@[simp] theorem put_idr (r : StoredOnly) (v : Word) (p : Port) : (r.put v p).idr = p.idr := by cases r <;> rfl

theorem put_with_idr (r : StoredOnly) (v w : Word) (p : Port) :
    { r.put v p with idr := w } = r.put v { p with idr := w } := by cases r <;> rfl

@[simp] theorem pinLevel_put (r : StoredOnly) (v : Word) (p : Port) (i : Nat) : pinLevel (r.put v p) i = pinLevel p i := by
  cases r <;> rfl

@[simp] theorem pinEvents_put (r : StoredOnly) (v : Word) (p : Port) (i : Nat) : pinEvents (r.put v p) i = pinEvents p i := by
  cases r <;> rfl

theorem resolvePins_put (r : StoredOnly) (v : Word) (is : List Nat) (p : Port) :
    resolvePins is (r.put v p) = (r.put v (resolvePins is p).1, (resolvePins is p).2) := by
  induction is generalizing p with
  | nil => rfl
  | cons i is ih => simp only [resolvePins, resolvePin, pinEvents_put, pinLevel_put, put_idr, put_with_idr, ih]

/-- A pass neither reads nor writes a register that is stored only (R111, R116). -/
theorem resolvePass_put (r : StoredOnly) (v : Word) (n : Nat) (p : Port) :
    resolvePass n (r.put v p) = (r.put v (resolvePass n p).1, (resolvePass n p).2) := resolvePins_put r v _ p

end Sys2Proof.Laws
end

