-- ==== Sys2Proof/Laws/Exec.lean ====
section
/-! SUPPORT. What an operation can do, said once: a trigger is one pass from the updated port, anything else completes with the
trace and the port it names. -/

namespace Sys2Proof.Laws

open Sys2Proof.Machine Sys2Proof.Safety

theorem complete_eq (s : State) (p : Port) (es : List Event) (r : Result) :
    complete s p es r = .next { s with port := p, events := es, result := r } := rfl

theorem complete_sides {s t : State} {p : Port} {es : List Event} {r : Result} (h : complete s p es r = .next t) :
    SameSides s t := by
  cases h; exact ⟨rfl, rfl, rfl⟩

/-- The state a trigger leaves: one pass from the port `p`. -/
def passed (s : State) (p : Port) : State :=
  { s with port := (resolvePass s.pinCount p).1, events := (resolvePass s.pinCount p).2, result := .noValue }

theorem completeTrigger_eq (s : State) (p : Port) : completeTrigger s p = .next (passed s p) := rfl

@[simp] theorem passed_pinCount (s : State) (p : Port) : (passed s p).pinCount = s.pinCount := rfl
@[simp] theorem passed_identity (s : State) (p : Port) : (passed s p).identity = s.identity := rfl
@[simp] theorem passed_pending (s : State) (p : Port) : (passed s p).pending = s.pending := rfl
@[simp] theorem passed_port (s : State) (p : Port) : (passed s p).port = (resolvePass s.pinCount p).1 := rfl
@[simp] theorem passed_events (s : State) (p : Port) : (passed s p).events = (resolvePass s.pinCount p).2 := rfl
@[simp] theorem passed_result (s : State) (p : Port) : (passed s p).result = .noValue := rfl

theorem passed_others (s : State) (p : Port) : (passed s p).port = { p with idr := (passed s p).port.idr } :=
  resolvePass_others _ _

theorem passed_idr (s : State) (p : Port) (i : Nat) :
    (passed s p).port.idr.getLsbD i = if i < s.pinCount then resolvedLevel p i else p.idr.getLsbD i :=
  resolvePass_idr _ _ _

theorem passed_isOutput (s : State) (p : Port) (i : Nat) : IsOutput (passed s p).port i ↔ IsOutput p i := by
  rw [passed_others]

theorem passed_resolvedLevel (s : State) (p : Port) (i : Nat) :
    resolvedLevel (passed s p).port i = resolvedLevel p i := by
  rw [passed_others]; rfl

theorem edge_mem_passed (s : State) (p : Port) (i : Nat) (b : Bool) :
    Event.edge i b ∈ (passed s p).events ↔
      i < s.pinCount ∧ IsOutput p i ∧ b = resolvedLevel p i ∧ b ≠ p.idr.getLsbD i :=
  edge_mem_resolvePass _ _ _ _

theorem conflict_mem_passed (s : State) (p : Port) (i : Nat) :
    Event.diag (.driveConflict i) ∈ (passed s p).events ↔
      i < s.pinCount ∧ IsOutput p i ∧ p.ovrEn.getLsbD i = true :=
  conflict_mem_resolvePass _ _ _

/-- On a consistent port, a pin whose level the update leaves as it is keeps its IDR bit and emits no edge (R105). -/
theorem passed_pin_unchanged {s : State} {q : Port} {i : Nat} (hc : Consistent s) (hq : q.idr = s.port.idr)
    (hl : resolvedLevel q i = resolvedLevel s.port i) :
    (passed s q).port.idr.getLsbD i = s.port.idr.getLsbD i ∧ ∀ b, Event.edge i b ∉ (passed s q).events := by
  constructor
  · rw [passed_idr, hl, hq]
    split
    · exact (hc i ‹_›).symm
    · rfl
  · intro b hb
    obtain ⟨h1, -, rfl, h4⟩ := (edge_mem_passed _ _ _ _).1 hb
    rw [hl, hq] at h4
    exact h4 (hc i h1).symm

/-- What a trigger leaves is what one pass leaves, in the terms of Safety.lean. -/
theorem passed_afterPass (s : State) (p : Port) : AfterPass s p (passed s p) where
  others := resolvePass_others _ _
  levels i _ := resolvePass_idr _ _ _
  conflicts i := by
    rw [passed_events, count_resolvePass]
    simp only [conflict_mem_resolvePass]
  edges i b := by
    rw [passed_events, count_resolvePass]
    simp only [edge_mem_resolvePass]
  noBadRead off h := by
    obtain ⟨i, -, ⟨h, -⟩ | ⟨h, -⟩⟩ := (mem_resolvePass _ _ _).1 h <;> cases h
  noBadWrite off v h := by
    obtain ⟨i, -, ⟨h, -⟩ | ⟨h, -⟩⟩ := (mem_resolvePass _ _ _).1 h <;> cases h
  noResult := rfl
  sides := ⟨rfl, rfl, rfl⟩

/-- The port a trigger's pass starts from (R93 to R102, R136 to R138). -/
def updatedPort : Instr → Port → Port
  | .wrModer v, p => { p with moder := v }
  | .wrOtyper v, p => { p with otyper := v }
  | .wrOspeedr v, p => { p with ospeedr := v }
  | .wrPupdr v, p => { p with pupdr := v }
  | .wrOdr v, p => { p with odr := v }
  | .wrBsrr v, p => { p with odr := bsrrUpdate p.odr v }
  | .wrLckr v, p => { p with lckr := v }
  | .wrAfrl v, p => { p with afrl := v }
  | .wrAfrh v, p => { p with afrh := v }
  | .lineLow q, p => drive p q.toNat false
  | .lineHigh q, p => drive p q.toNat true
  | .lineRelease q, p => release p q.toNat
  | _, p => p

/-- No trigger writes IDR before its pass. -/
@[simp] theorem updatedPort_idr (i : Instr) (p : Port) : (updatedPort i p).idr = p.idr := by
  cases i <;> rfl

/-- A trigger overwrites a stored-only register or leaves it as it is, and does the same to all else. -/
theorem updatedPort_put (r : StoredOnly) (v : Word) (i : Instr) (p : Port) :
    updatedPort i (r.put v p) = updatedPort i p ∨ updatedPort i (r.put v p) = r.put v (updatedPort i p) := by
  cases i <;> cases r <;> first | exact .inr rfl | exact .inl rfl

theorem lineEvent_of_lt {s : State} {p : PinOperand} (h : p.toNat < s.pinCount) (q : Port) :
    lineEvent s p q = .next (passed s q) := if_pos h

theorem lineEvent_of_ge {s : State} {p : PinOperand} (h : s.pinCount ≤ p.toNat) (q : Port) :
    lineEvent s p q = .refused (.configurationError p.toNat) := if_neg (by omega)

/-- A trigger inside the contract is one pass from its updated port (R119). -/
theorem exec_trigger {i : Instr} {s : State} (h : isTrigger i = true) (hc : withinContract s.pinCount i = true) :
    exec i s = .next (passed s (updatedPort i s.port)) := by
  cases i
  case lineLow p => exact lineEvent_of_lt (of_decide_eq_true hc) _
  case lineHigh p => exact lineEvent_of_lt (of_decide_eq_true hc) _
  case lineRelease p => exact lineEvent_of_lt (of_decide_eq_true hc) _
  all_goals first | rfl | cases h

/-- An operation outside the contract is a line event on a pin at or above N, and is refused (R139). -/
theorem exec_outside {i : Instr} {s : State} (hc : withinContract s.pinCount i = false) :
    ∃ p, linePin i = some p ∧ exec i s = .refused (.configurationError p.toNat) := by
  cases i
  case lineLow p => exact ⟨p, rfl, lineEvent_of_ge (Nat.le_of_not_lt (of_decide_eq_false hc)) _⟩
  case lineHigh p => exact ⟨p, rfl, lineEvent_of_ge (Nat.le_of_not_lt (of_decide_eq_false hc)) _⟩
  case lineRelease p => exact ⟨p, rfl, lineEvent_of_ge (Nat.le_of_not_lt (of_decide_eq_false hc)) _⟩
  all_goals cases hc

/-- An operation that is no trigger completes; unless it overwrites everything it leaves the port as it is, and it emits nothing
but one report of a bad offset. -/
theorem exec_nontrigger {i : Instr} (s : State) (h : isTrigger i = false) :
    ∃ p es r, exec i s = complete s p es r ∧ (overwritesAll i = false → p = s.port) ∧
      (es = [] ∨ ∃ d, es = [.diag d] ∧ p = s.port ∧ ∀ q, d ≠ .driveConflict q) := by
  cases i
  case rdUnknown off => exact ⟨_, _, _, rfl, fun _ => rfl, .inr ⟨_, rfl, rfl, nofun⟩⟩
  case wrUnknown off v => exact ⟨_, _, _, rfl, fun _ => rfl, .inr ⟨_, rfl, rfl, nofun⟩⟩
  all_goals first
    | exact ⟨_, _, _, rfl, fun _ => rfl, .inl rfl⟩
    | exact ⟨_, _, _, rfl, nofun, .inl rfl⟩
    | cases h

/-- Everything an operation that completes can do. -/
theorem exec_cases {i : Instr} {s t : State} (h : exec i s = .next t) :
    (isTrigger i = true ∧ withinContract s.pinCount i = true ∧ t = passed s (updatedPort i s.port)) ∨
    (isTrigger i = false ∧ SameSides s t ∧ (overwritesAll i = false → t.port = s.port) ∧
      (t.events = [] ∨ ∃ d, t.events = [.diag d] ∧ t.port = s.port ∧ ∀ q, d ≠ .driveConflict q)) := by
  by_cases ht : isTrigger i = true
  · refine .inl ⟨ht, ?_⟩
    by_cases hc : withinContract s.pinCount i = true
    · rw [exec_trigger ht hc] at h
      cases h
      exact ⟨hc, rfl⟩
    · obtain ⟨p, -, hr⟩ := exec_outside (s := s) (Bool.eq_false_iff.2 hc)
      rw [hr] at h
      cases h
  · have ht' := Bool.eq_false_iff.2 ht
    obtain ⟨p, es, r, he, hp, hes⟩ := exec_nontrigger s ht'
    rw [he] at h
    cases h
    exact .inr ⟨ht', ⟨rfl, rfl, rfl⟩, hp, hes⟩

/-- An operation that completes keeps N, ID and what is pending (R27). -/
theorem exec_sides {i : Instr} {s t : State} (h : exec i s = .next t) : SameSides s t := by
  obtain ⟨-, -, rfl⟩ | ⟨-, hs, -⟩ := exec_cases h
  · exact ⟨rfl, rfl, rfl⟩
  · exact hs

end Sys2Proof.Laws
end

