-- ==== Sys2Proof/Laws/PerInstr.lean ====
section
/-! SUPPORT. Statements made per instruction: every packet is a selector and as many data words as the selector takes (R60, R61). -/

namespace Sys2Proof.Laws.DataCount

/-- The packet of `i` is a selector and the number of data words that selector takes. -/
def Statement (i : Instr) : Prop :=
  ∃ (sel : BitVec 12) (data : List Word), encode i = packet sel data ∧ data.length = dataWords sel

theorem dataWords_readSel (off : Offset) : dataWords (readSel off) = 0 := by
  have h : readSel off ≠ 0xC02#12 := fun e => by
    have := selClass_readSel off
    rw [e] at this
    exact absurd this (by decide)
  rw [dataWords, selClass_readSel, if_neg (by decide), if_neg h]

theorem dataWords_writeSel (off : Offset) : dataWords (writeSel off) = 1 := by
  rw [dataWords, selClass_writeSel, if_pos rfl]

theorem dataWords_lineSel (v : LineValue) (p : PinOperand) : dataWords (lineSel v p) = 0 := by
  revert p; cases v <;> decide

theorem read_statement {i : Instr} {off : Offset} (h : encode i = packet (readSel off) []) : Statement i :=
  ⟨_, _, h, (dataWords_readSel off).symm⟩

theorem write_statement {i : Instr} {off : Offset} {v : Word} (h : encode i = packet (writeSel off) [v]) : Statement i :=
  ⟨_, _, h, (dataWords_writeSel off).symm⟩

theorem line_statement {i : Instr} {v : LineValue} {p : PinOperand} (h : encode i = packet (lineSel v p) []) :
    Statement i :=
  ⟨_, _, h, (dataWords_lineSel v p).symm⟩

theorem rdModer : Statement .rdModer := read_statement rfl
theorem rdOtyper : Statement .rdOtyper := read_statement rfl
theorem rdOspeedr : Statement .rdOspeedr := read_statement rfl
theorem rdPupdr : Statement .rdPupdr := read_statement rfl
theorem rdIdr : Statement .rdIdr := read_statement rfl
theorem rdOdr : Statement .rdOdr := read_statement rfl
theorem rdBsrr : Statement .rdBsrr := read_statement rfl
theorem rdLckr : Statement .rdLckr := read_statement rfl
theorem rdAfrl : Statement .rdAfrl := read_statement rfl
theorem rdAfrh : Statement .rdAfrh := read_statement rfl
theorem rdUnknown (off : Offset) : Statement (.rdUnknown off) := read_statement rfl
theorem wrModer (v : Word) : Statement (.wrModer v) := write_statement rfl
theorem wrOtyper (v : Word) : Statement (.wrOtyper v) := write_statement rfl
theorem wrOspeedr (v : Word) : Statement (.wrOspeedr v) := write_statement rfl
theorem wrPupdr (v : Word) : Statement (.wrPupdr v) := write_statement rfl
theorem wrIdr (v : Word) : Statement (.wrIdr v) := write_statement rfl
theorem wrOdr (v : Word) : Statement (.wrOdr v) := write_statement rfl
theorem wrBsrr (v : Word) : Statement (.wrBsrr v) := write_statement rfl
theorem wrLckr (v : Word) : Statement (.wrLckr v) := write_statement rfl
theorem wrAfrl (v : Word) : Statement (.wrAfrl v) := write_statement rfl
theorem wrAfrh (v : Word) : Statement (.wrAfrh v) := write_statement rfl
theorem wrUnknown (off : Offset) (v : Word) : Statement (.wrUnknown off v) := write_statement rfl
theorem lineLow (p : PinOperand) : Statement (.lineLow p) := line_statement (v := .driveLow) rfl
theorem lineHigh (p : PinOperand) : Statement (.lineHigh p) := line_statement (v := .driveHigh) rfl
theorem lineRelease (p : PinOperand) : Statement (.lineRelease p) := line_statement (v := .release) rfl
theorem reset : Statement .reset := ⟨_, _, rfl, rfl⟩
theorem save : Statement .save := ⟨_, _, rfl, rfl⟩
theorem restore (f : Snapshot) : Statement (.restore f) := ⟨_, _, rfl, rfl⟩

end Sys2Proof.Laws.DataCount
end

