-- ==== Sys2Proof/Laws/Step.lean ====
section
/-! SUPPORT. What a request of the environment stands for (spec R7, R9, R135, R140), and what a step can do. -/

namespace Sys2Proof.Laws

open Sys2Proof.Machine Sys2Proof.Safety

theorem step_of_fetch {s t : State} {i : Instr} (h : fetch s = .ok (i, t)) : step s = exec i t := by
  rw [step, h]

theorem step_of_fetch_error {s : State} {r : Refusal} (h : fetch s = .error r) : step s = .refused r := by
  rw [step, h]

/-- Everything a step that completes can do: it executed an operation that was pending. -/
theorem step_cases {s t : State} (h : step s = .next t) :
    ∃ r rest i, s.pending = r :: rest ∧ requestInstr r = .ok i ∧ exec i { s with pending := rest } = .next t := by
  unfold step at h
  split at h
  · cases h
  · rename_i i u hf
    unfold fetch at hf
    split at hf
    · cases hf
    · rename_i r rest hp
      split at hf
      · cases hf
      · rename_i j hj
        cases hf
        exact ⟨r, rest, _, hp, hj, h⟩

theorem fetch_ok {s : State} {r : Request} {rest : List Request} {i : Instr} (h : s.pending = r :: rest)
    (hr : requestInstr r = .ok i) : fetch s = .ok (i, { s with pending := rest }) := by
  simp only [fetch, h, hr]

theorem fetch_error {s : State} {r : Request} {rest : List Request} {e : Refusal} (h : s.pending = r :: rest)
    (hr : requestInstr r = .error e) : fetch s = .error e := by
  simp only [fetch, h, hr]

/-- Every pin operand is a pin index (R60). -/
theorem pinOperand_toNat (p : PinOperand) : pinOperand (p.toNat : Int) = .ok p := by
  revert p; decide

/-- A `setLine` call on a pin the operand can hold is the line event of its value (R135). -/
theorem requestInstr_setLine (p : PinOperand) (v : LineValue) :
    requestInstr (.setLine p.toNat v) = .ok (match v with
      | .driveLow => .lineLow p
      | .driveHigh => .lineHigh p
      | .release => .lineRelease p) := by
  cases v <;> simp [requestInstr, requestPacket, linePacket, pinOperand_toNat, Except.map, decode_lineSel]

/-- The integer form is the enumeration form of the value it maps to (R140). -/
theorem requestInstr_setLevel {pin level : Int} {v : LineValue} (h : lineValueOf level = .ok v) :
    requestInstr (.setLevel pin level) = requestInstr (.setLine pin v) := by
  simp only [requestInstr, requestPacket, h]

theorem busOffset_ok {a : Nat} (h : a < 0x400) : busOffset a 4 = .ok (BitVec.ofNat 10 a) := by
  have hw : ¬ Config.windowBytes ≤ a := Nat.not_le.2 h
  rw [busOffset, if_neg (show ¬ 4 ≠ Config.accessWidth by decide), if_neg hw]

/-- A 4-byte read inside the window is the read of its offset (R42, R45). -/
theorem requestInstr_memRead {a : Nat} (h : a < 0x400) :
    requestInstr (.memRead a 4) = .ok (readAt (BitVec.ofNat 10 a)) := by
  simp only [requestInstr, requestPacket, busOffset_ok h, Except.map, decode_readSel]

/-- A 4-byte write inside the window is the write of its offset (R42, R45). -/
theorem requestInstr_memWrite {a : Nat} (h : a < 0x400) (v : Word) :
    requestInstr (.memWrite a 4 v) = .ok (writeAt (BitVec.ofNat 10 a) v) := by
  simp only [requestInstr, requestPacket, busOffset_ok h, Except.map, decode_writeSel]

theorem readWord_ofNat {a : Nat} (h : a < 0x400) : (BitVec.ofNat 10 a).setWidth 32 = BitVec.ofNat 32 a := by
  apply BitVec.eq_of_toNat_eq
  simp; omega

theorem writeWord_ofNat {a : Nat} (h : a < 0x400) :
    (0x400#32 ||| (BitVec.ofNat 10 a).setWidth 32) = BitVec.ofNat 32 (0x400 + a) := by
  rw [readWord_ofNat h]
  apply BitVec.eq_of_toNat_eq
  rw [BitVec.toNat_or, BitVec.toNat_ofNat, BitVec.toNat_ofNat, BitVec.toNat_ofNat, Nat.mod_eq_of_lt (a := a) (by omega),
    Nat.mod_eq_of_lt (a := 0x400 + a) (by omega)]
  exact (Nat.shiftLeft_add_eq_or_of_lt (b := a) (i := 10) h 1).symm

end Sys2Proof.Laws
end

