-- ==== Sys2Proof/Tests/Slice0.lean ====
section
/-! SUPPORT. The model's own tests: well-formedness, decoding of words written out from the spec's encoding, one step of each
operation against the spec's vectors (95_test_vectors.md) and worked cases (R123), and the witnesses of the statements' hypotheses. -/

namespace Sys2Proof.Tests

open Sys2Proof.Machine Sys2Proof.Safety

/-- A port of `n` pins with the given items and nothing pending. -/
def portOn (n : Nat) (p : Port) : State := { State.constructed .a n with port := p }

/-- The state an operation leaves. -/
def left : Host.Outcome State Fault Refusal → Option State
  | .next t => some t
  | .fault _ => none
  | .refused _ => none

/-- The event trace an operation leaves. -/
def trace (o : Host.Outcome State Fault Refusal) : Option (List Event) := (left o).map (·.events)

/-- The port an operation leaves. -/
def portLeft (o : Host.Outcome State Fault Refusal) : Option Port := (left o).map (·.port)

/-- What an operation returns. -/
def returned (o : Host.Outcome State Fault Refusal) : Option Result := (left o).map (·.result)

/-- Why an operation is refused. -/
def whyRefused : Host.Outcome State Fault Refusal → Option Refusal
  | .next _ => none
  | .fault _ => none
  | .refused r => some r

/-- What a packet decodes to, as an option. -/
def decoded (ws : List Word) : Option Instr :=
  match decode ws with
  | .ok i => some i
  | .error _ => none

/-- Why a packet decodes to nothing. -/
def whyNot (ws : List Word) : Option DecodeError :=
  match decode ws with
  | .ok _ => none
  | .error e => some e

-- ==== Well-formedness: an ill-formed term for each check ====

theorem test_unknown_read_of_a_defined_offset_is_ill_formed : wellFormed (.rdUnknown 0x014#10) = false := by decide

theorem test_unknown_write_of_a_defined_offset_is_ill_formed : wellFormed (.wrUnknown 0x000#10 1) = false := by decide

theorem test_unknown_offsets_are_well_formed :
    wellFormed (.rdUnknown 0x016#10) = true ∧ wellFormed (.wrUnknown 0x3FC#10 1) = true := by decide

-- ==== Decoding: the words of R67's table, written out ====

theorem test_decode_reads :
    decoded [0x000] = some .rdModer ∧ decoded [0x004] = some .rdOtyper ∧ decoded [0x008] = some .rdOspeedr ∧
    decoded [0x00C] = some .rdPupdr ∧ decoded [0x010] = some .rdIdr ∧ decoded [0x014] = some .rdOdr ∧
    decoded [0x018] = some .rdBsrr ∧ decoded [0x01C] = some .rdLckr ∧ decoded [0x020] = some .rdAfrl ∧
    decoded [0x024] = some .rdAfrh := by decide

/-- 2.9 V-BAD: first unused, P9's, last word, misaligned. -/
theorem test_decode_unknown_reads :
    decoded [0x028] = some (.rdUnknown 0x028) ∧ decoded [0x030] = some (.rdUnknown 0x030) ∧
    decoded [0x3FC] = some (.rdUnknown 0x3FC) ∧ decoded [0x002] = some (.rdUnknown 0x002) := by decide

theorem test_decode_writes :
    decoded [0x400, 1] = some (.wrModer 1) ∧ decoded [0x404, 2] = some (.wrOtyper 2) ∧
    decoded [0x408, 3] = some (.wrOspeedr 3) ∧ decoded [0x40C, 4] = some (.wrPupdr 4) ∧
    decoded [0x410, 5] = some (.wrIdr 5) ∧ decoded [0x414, 6] = some (.wrOdr 6) ∧
    decoded [0x418, 0x10001] = some (.wrBsrr 0x10001) ∧ decoded [0x41C, 8] = some (.wrLckr 8) ∧
    decoded [0x420, 9] = some (.wrAfrl 9) ∧ decoded [0x424, 10] = some (.wrAfrh 10) ∧
    decoded [0x430, 0xDEADBEEF] = some (.wrUnknown 0x030 0xDEADBEEF) ∧
    decoded [0x416, 1] = some (.wrUnknown 0x016 1) := by decide

theorem test_decode_lines_and_system :
    decoded [0x801] = some (.lineLow 1) ∧ decoded [0x813] = some (.lineHigh 3) ∧ decoded [0x81F] = some (.lineHigh 15) ∧
    decoded [0x820] = some (.lineRelease 0) ∧ decoded [0xC00] = some .reset ∧ decoded [0xC01] = some .save ∧
    decoded [0xC02, 0, 1, 2, 3, 4, 5, 6, 7, 8, 9, 10] = some (.restore ⟨0, 1, 2, 3, 4, 5, 6, 7, 8, 9, 10⟩) := by decide

/-- R68: `lvl = 3`, a nonzero zero field, `sysop = 3`; and the packet's own checks (log 5). -/
theorem test_decode_refuses_by_name :
    whyNot [0x830] = some (.reservedLine 0x830) ∧ whyNot [0x840] = some (.reservedLine 0x840) ∧
    whyNot [0xC03] = some (.reservedSystem 0xC03) ∧ whyNot [0xC04] = some (.reservedSystem 0xC04) ∧
    whyNot [] = some .noSelector ∧ whyNot [0x1000] = some (.selectorTooWide 0x1000) ∧
    whyNot [0x400] = some (.dataCount 0x400) ∧ whyNot [0x000, 1] = some (.dataCount 0x000) ∧
    whyNot [0xC02, 1] = some (.dataCount 0xC02) := by decide

theorem test_encode_words :
    encode .rdIdr = [0x010] ∧ encode (.wrBsrr 7) = [0x418, 7] ∧ encode (.lineHigh 3) = [0x813] ∧
    encode (.lineRelease 0) = [0x820] ∧ encode .save = [0xC01] := by decide

theorem test_table_words :
    decodeTableWord 16 0x010 = some .rdIdr ∧ decodeTableWord 16 0x418 = some (.wrBsrr 0) ∧
    decodeTableWord 16 0x815 = some (.lineHigh 5) ∧ decodeTableWord 16 0xC03 = none ∧
    decodeTableWord 16 0xC02 = some (.restore ⟨0, 0, 0, 0, 0, 0, 0, 0, 0, 0, 0⟩) := by decide

theorem test_fetched_word_runs_next :
    trace (step (State.reset.withFetchWord 16 0x030)) = some [.diag (.badOffsetRead 0x030)] ∧
    (left (step (State.reset.withFetchWord 16 0x030))).map (·.pending) = some [] := by decide

-- ==== Reads ====

/-- Every register another word, so that a read of the wrong one shows. -/
def distinct : Port := ⟨1, 2, 3, 4, 5, 6, 7, 8, 9, 0x0F, 0x05⟩

theorem test_reads_return_their_own_register :
    returned (exec .rdModer (portOn 16 distinct)) = some (.value 1) ∧
    returned (exec .rdOtyper (portOn 16 distinct)) = some (.value 2) ∧
    returned (exec .rdOspeedr (portOn 16 distinct)) = some (.value 3) ∧
    returned (exec .rdPupdr (portOn 16 distinct)) = some (.value 4) ∧
    returned (exec .rdIdr (portOn 16 distinct)) = some (.value 5) ∧
    returned (exec .rdOdr (portOn 16 distinct)) = some (.value 6) ∧
    returned (exec .rdBsrr (portOn 16 distinct)) = some (.value 0) ∧
    returned (exec .rdLckr (portOn 16 distinct)) = some (.value 7) ∧
    returned (exec .rdAfrl (portOn 16 distinct)) = some (.value 8) ∧
    returned (exec .rdAfrh (portOn 16 distinct)) = some (.value 9) := by decide

/-- P9. -/
theorem test_unknown_read :
    left (exec (.rdUnknown 0x030) (portOn 16 distinct)) =
      some { portOn 16 distinct with events := [.diag (.badOffsetRead 0x030)], result := .value 0 } := by decide

-- ==== Writes ====

/-- R123, second row: pin 0 was an input pulled up and becomes an output with `ODR[0] = 0`. -/
theorem test_mode_write_edge :
    trace (exec (.wrModer 1) (portOn 16 { Port.zero with pupdr := 1, idr := 1 })) = some [.edge 0 false] := by decide

/-- 2.5 row 8: a pin that leaves Output mode falls without an edge. -/
theorem test_mode_write_leaving_output :
    trace (exec (.wrModer 0) (portOn 16 { Port.zero with moder := 1, odr := 1, idr := 1 })) = some [] ∧
    portLeft (exec (.wrModer 0) (portOn 16 { Port.zero with moder := 1, odr := 1, idr := 1 })) =
      some { Port.zero with odr := 1 } := by decide

/-- Program D, step 5: a successful write to AFRL runs a pass, which repeats the conflict. -/
theorem test_afrl_write_repeats_conflict :
    trace (exec (.wrAfrl 7) (portOn 16 { Port.zero with moder := 1, idr := 1, ovrEn := 1, ovrVal := 1 })) =
      some [.diag (.driveConflict 0)] := by decide

/-- 2.1: pins 2, 3 and 4 pulled up. -/
theorem test_pull_write_levels :
    portLeft (exec (.wrPupdr 0x150) (portOn 16 Port.zero)) = some { Port.zero with pupdr := 0x150, idr := 0x1C } := by decide

/-- 2.1: the unnamed pull value 3 reads back and is not Up. -/
theorem test_pull_value_three :
    portLeft (exec (.wrPupdr 0xFFFFFFFF) (portOn 16 Port.zero)) = some { Port.zero with pupdr := 0xFFFFFFFF } := by decide

/-- Program C, step 2: four output pins rise, ODR's other bits are stored and not shown. -/
theorem test_odr_write_four_pins :
    trace (exec (.wrOdr 0xFF) (portOn 4 { Port.zero with moder := 0x55 })) =
      some [.edge 0 true, .edge 1 true, .edge 2 true, .edge 3 true] ∧
    portLeft (exec (.wrOdr 0xFF) (portOn 4 { Port.zero with moder := 0x55 })) =
      some { Port.zero with moder := 0x55, odr := 0xFF, idr := 0xF } := by decide

/-- 2.2 V-BSRR rows, among them set over clear, the upper half kept, and the logical shift. -/
theorem test_bsrr_rows :
    bsrrUpdate 0x00000001 0x00010001 = 0x00000001 ∧ bsrrUpdate 0x0000FFFF 0xFFFF0000 = 0x00000000 ∧
    bsrrUpdate 0x00000000 0xFFFFFFFF = 0x0000FFFF ∧ bsrrUpdate 0x0000A5A5 0x00FF0F00 = 0x0000AF00 ∧
    bsrrUpdate 0xABCD1234 0x12340000 = 0xABCD0000 ∧ bsrrUpdate 0xABCD0000 0x80008000 = 0xABCD8000 ∧
    bsrrUpdate 0x00000000 0x80000000 = 0x00000000 := by decide

/-- Program C, step 11: the write that refreshes a stale IDR; pin 2 is overridden. -/
theorem test_bsrr_zero_refreshes_stale_idr :
    trace (exec (.wrBsrr 0) (portOn 4 { Port.zero with moder := 0x55, odr := 0xFF, ovrEn := 4 })) =
      some [.edge 0 true, .edge 1 true, .diag (.driveConflict 2), .edge 3 true] ∧
    portLeft (exec (.wrBsrr 0) (portOn 4 { Port.zero with moder := 0x55, odr := 0xFF, ovrEn := 4 })) =
      some { Port.zero with moder := 0x55, odr := 0xFF, idr := 0xB, ovrEn := 4 } := by decide

/-- Program C, step 10: a write to IDR does not refresh it. -/
theorem test_idr_write_is_discarded :
    left (exec (.wrIdr 0xF) (portOn 4 { Port.zero with moder := 0x55, odr := 0xFF, ovrEn := 4 })) =
      some (portOn 4 { Port.zero with moder := 0x55, odr := 0xFF, ovrEn := 4 }) := by decide

/-- 2.1: stored whole, each in its own register. -/
theorem test_stored_only_writes :
    portLeft (exec (.wrOtyper 0xFFFF0001) (portOn 16 Port.zero)) = some { Port.zero with otyper := 0xFFFF0001 } ∧
    portLeft (exec (.wrOspeedr 0xFFFFFFFF) (portOn 16 Port.zero)) = some { Port.zero with ospeedr := 0xFFFFFFFF } ∧
    portLeft (exec (.wrLckr 0x0001FFFF) (portOn 16 Port.zero)) = some { Port.zero with lckr := 0x0001FFFF } ∧
    portLeft (exec (.wrAfrl 0x76543210) (portOn 16 Port.zero)) = some { Port.zero with afrl := 0x76543210 } ∧
    portLeft (exec (.wrAfrh 0xFEDCBA98) (portOn 16 Port.zero)) = some { Port.zero with afrh := 0xFEDCBA98 } := by decide

/-- Program D, step 3: no pass, so no repeated conflict. -/
theorem test_unknown_write :
    trace (exec (.wrUnknown 0x030 0xFFFFFFFF) (portOn 16 { Port.zero with moder := 1, idr := 1, ovrEn := 1, ovrVal := 1 })) =
      some [.diag (.badOffsetWrite 0x030 0xFFFFFFFF)] := by decide

-- ==== Line events (2.6 V-LINE) ====

/-- Program B, step 3: a pulled-up input driven low. -/
theorem test_line_low :
    portLeft (exec (.lineLow 1) (portOn 16 { Port.zero with pupdr := 4, idr := 2 })) =
      some { Port.zero with pupdr := 4, ovrEn := 2 } := by decide

/-- Row 5. -/
theorem test_line_high_conflict_then_edge :
    trace (exec (.lineHigh 3) (portOn 16 { Port.zero with moder := 0x40, ovrEn := 8 })) =
      some [.diag (.driveConflict 3), .edge 3 true] := by decide

/-- Row 6: the event on pin 15 reports pin 3's standing conflict again. -/
theorem test_line_high_on_another_pin :
    trace (exec (.lineHigh 15) (portOn 16 { Port.zero with moder := 0x40, idr := 8, ovrEn := 8, ovrVal := 8 })) =
      some [.diag (.driveConflict 3)] := by decide

/-- Row 7: `ovr_val` keeps its bit. -/
theorem test_line_release :
    trace (exec (.lineRelease 3) (portOn 16 { Port.zero with moder := 0x40, idr := 0x8008, ovrEn := 0x8008, ovrVal := 0x8008 })) =
      some [.edge 3 false] ∧
    portLeft (exec (.lineRelease 3) (portOn 16 { Port.zero with moder := 0x40, idr := 0x8008, ovrEn := 0x8008, ovrVal := 0x8008 })) =
      some { Port.zero with moder := 0x40, idr := 0x8000, ovrEn := 0x8000, ovrVal := 0x8008 } := by decide

/-- "With `N = 8`, `LINE 8, HIGH` is refused." -/
theorem test_line_refused :
    whyRefused (exec (.lineHigh 8) (portOn 8 Port.zero)) = some (.configurationError 8) ∧
    whyRefused (exec (.lineHigh 7) (portOn 8 Port.zero)) = none := by decide

-- ==== System operations ====

theorem test_reset : portLeft (exec .reset (portOn 16 distinct)) = some Port.zero ∧
    trace (exec .reset (portOn 16 distinct)) = some [] := by decide

/-- 2.7: the save after V-LINE row 7. -/
theorem test_save :
    returned (exec .save (portOn 16 { Port.zero with moder := 0x40, idr := 0x8000, ovrEn := 0x8000, ovrVal := 0x8008 })) =
      some (.snapshot ⟨0x40, 0, 0, 0, 0x8000, 0, 0, 0, 0, 0x8000, 0x8008⟩) := by decide

/-- 2.7: with `N = 4` the masks' upper bits are ignored. -/
theorem test_restore_masks :
    portLeft (exec (.restore ⟨0, 0, 0, 0, 0, 0, 0, 0, 0, 0xFFFFFFFF, 0xFFFFFFFF⟩) (portOn 4 Port.zero)) =
      some { Port.zero with ovrEn := 0xF, ovrVal := 0xF } := by decide

/-- R147's example: stale, and no event. -/
theorem test_restore_is_not_resolved :
    left (exec (.restore ⟨1, 0, 0, 0, 0, 1, 0, 0, 0, 0, 0⟩) (portOn 16 Port.zero)) =
      some (portOn 16 { Port.zero with moder := 1, odr := 1 }) := by decide

-- ==== Requests (2.9 V-BAD) ====

/-- `RD 0x400` and a 2-byte read are refused. -/
theorem test_refused_requests :
    whyRefused (step { State.reset with pending := [.memRead 0x400 4] }) = some (.outsideWindow 0x400) ∧
    whyRefused (step { State.reset with pending := [.memRead 0x010 2] }) = some (.accessWidth 2) ∧
    whyRefused (step { State.reset with pending := [.setLevel 0 2] }) = some (.lineLevel 2) ∧
    whyRefused (step State.reset) = some .noOperation ∧
    whyRefused (construct .a 0) = some (.pinCount 0) ∧ whyRefused (construct .a 17) = some (.pinCount 17) := by decide

/-- R140: a negative level releases. -/
theorem test_negative_level_releases :
    portLeft (step { portOn 16 { Port.zero with ovrEn := 1, ovrVal := 1, idr := 1 } with pending := [.setLevel 0 (-5)] }) =
      some { Port.zero with ovrVal := 1 } := by decide

-- ==== Witnesses: each statement's hypotheses are met together ====

/-- Four pins, IDR consistent: 0 an output high, 1 an output held low against ODR, 2 a pulled-up input, 3 an analog pin
that is driven high. -/
def busy : State := portOn 4
  { Port.zero with moder := 0xC5, pupdr := 0x10, odr := 0x3, idr := 0xD, ovrEn := 0xA, ovrVal := 0x8 }

theorem witness_busy_meets_the_invariant : Inv busy ∧ Consistent busy := by decide

theorem witness_DecodeInvertsEncode : WellFormed (.wrUnknown 0x3FF#10 0) ∧ WellFormed (.lineHigh 15#4) := by decide

theorem witness_EncodeInvertsDecode : decode [0xC02#32, 0, 0, 0, 0, 0, 0, 0, 0, 0, 0, 0] =
    .ok (.restore ⟨0, 0, 0, 0, 0, 0, 0, 0, 0, 0, 0⟩) := rfl

theorem witness_StepRunsTheDecodedInstruction :
    { busy with pending := [.words [0x010#32], .reset] }.pending = Request.words [0x010#32] :: [.reset] ∧
    decode [0x010#32] = .ok .rdIdr := ⟨rfl, rfl⟩

/-- Each clause at the ends of its range. -/
theorem witness_CallsReachTheirOperation :
    (∃ s : State, s.pending = .memRead 0x3FF 4 :: [] ∧ 0x3FF < 0x400) ∧
    (∃ s : State, s.pending = .memRead 0x000 4 :: []) ∧
    (∃ s : State, s.pending = .memWrite 0x3FF 4 1 :: []) ∧
    (∃ s : State, s.pending = .setLine (15#4).toNat .driveLow :: []) ∧
    (∃ s : State, s.pending = .setLine (0#4).toNat .driveHigh :: []) ∧
    (∃ s : State, s.pending = .setLine (15#4).toNat .release :: []) ∧
    (∃ s : State, s.pending = .reset :: []) ∧ (∃ s : State, s.pending = .save :: []) ∧
    (∃ s : State, s.pending = .restore ⟨0, 0, 0, 0, 0, 0, 0, 0, 0, 0, 0⟩ :: []) :=
  ⟨⟨{ busy with pending := _ }, rfl, by decide⟩, ⟨{ busy with pending := _ }, rfl⟩, ⟨{ busy with pending := _ }, rfl⟩,
    ⟨{ busy with pending := _ }, rfl⟩, ⟨{ busy with pending := _ }, rfl⟩, ⟨{ busy with pending := _ }, rfl⟩,
    ⟨{ busy with pending := _ }, rfl⟩, ⟨{ busy with pending := _ }, rfl⟩, ⟨{ busy with pending := _ }, rfl⟩⟩

theorem witness_IntegerLevelsMapToLineValues :
    (∃ s : State, s.pending = .setLevel (3#4).toNat (-1) :: [] ∧ (-1 : Int) < 0) ∧
    (∃ s : State, s.pending = .setLevel (3#4).toNat 0 :: []) ∧
    (∃ s : State, s.pending = .setLevel (3#4).toNat 1 :: []) :=
  ⟨⟨{ busy with pending := _ }, rfl, by decide⟩, ⟨{ busy with pending := _ }, rfl⟩, ⟨{ busy with pending := _ }, rfl⟩⟩

/-- Pin 4 is the first at or above N = 4, pin -1 the last below 0. -/
theorem witness_CallsOutsideTheContractAreRefused :
    busy.pending = [] ∧
    (∃ s : State, s.pending = .memRead 0x010 3 :: [] ∧ (3 : Nat) ≠ 4) ∧
    (∃ s : State, s.pending = .memWrite 0x010 5 1 :: [] ∧ (5 : Nat) ≠ 4) ∧
    (∃ s : State, s.pending = .memRead 0x400 4 :: [] ∧ 0x400 ≤ 0x400) ∧
    (∃ s : State, s.pending = .memWrite 0x400 4 1 :: []) ∧
    (∃ s : State, s.pending = .setLine 4 .driveHigh :: [] ∧ (s.pinCount : Int) ≤ 4) ∧
    (∃ s : State, s.pending = .setLine (-1) .release :: [] ∧ (-1 : Int) < 0) ∧
    (∃ s : State, s.pending = .setLevel 0 2 :: [] ∧ (1 : Int) < 2) :=
  ⟨rfl, ⟨{ busy with pending := _ }, rfl, by decide⟩, ⟨{ busy with pending := _ }, rfl, by decide⟩,
    ⟨{ busy with pending := _ }, rfl, by decide⟩, ⟨{ busy with pending := _ }, rfl⟩,
    ⟨{ busy with pending := _ }, rfl, by decide⟩, ⟨{ busy with pending := _ }, rfl, by decide⟩,
    ⟨{ busy with pending := _ }, rfl, by decide⟩⟩

theorem witness_EveryOperationCompletesInsideTheContract :
    withinContract busy.pinCount (.lineLow 3) = true ∧ withinContract busy.pinCount (.lineLow 4) = false ∧
    withinContract busy.pinCount .save = true := by decide

theorem witness_ReadsReturnTheStoredWord :
    (Instr.rdAfrh, busy.port.afrh) ∈ [(Instr.rdModer, busy.port.moder), (.rdOtyper, busy.port.otyper),
      (.rdOspeedr, busy.port.ospeedr), (.rdPupdr, busy.port.pupdr), (.rdIdr, busy.port.idr), (.rdOdr, busy.port.odr),
      (.rdBsrr, 0x00000000#32), (.rdLckr, busy.port.lckr), (.rdAfrl, busy.port.afrl), (.rdAfrh, busy.port.afrh)] := by
  decide

theorem witness_UnknownReadReturnsZeroAndReports :
    0x028#10 ∉ definedOffsets ∧ 0x3FF#10 ∉ definedOffsets ∧ 0x001#10 ∉ definedOffsets := by decide

theorem witness_UnknownWriteOnlyReports : 0x023#10 ∉ definedOffsets ∧ 0x025#10 ∉ definedOffsets := by decide

theorem witness_ReadsChangeNothing : 0x024#10 ∈ definedOffsets ∧ 0x000#10 ∈ definedOffsets := by decide

theorem witness_ReadAfterWriteReturnsTheWord :
    (Instr.wrAfrh 7, Instr.rdAfrh) ∈ [(Instr.wrModer 7, Instr.rdModer), (.wrOtyper 7, .rdOtyper),
      (.wrOspeedr 7, .rdOspeedr), (.wrPupdr 7, .rdPupdr), (.wrOdr 7, .rdOdr), (.wrLckr 7, .rdLckr), (.wrAfrl 7, .rdAfrl),
      (.wrAfrh 7, .rdAfrh)] := by decide

theorem witness_StoredOnlyRegisterWritesResolve :
    (0x424#32, Instr.wrAfrh 7, { busy.port with afrh := 7 }) ∈
      [(0x404#32, Instr.wrOtyper 7, { busy.port with otyper := 7 }),
        (0x408#32, .wrOspeedr 7, { busy.port with ospeedr := 7 }), (0x41C#32, .wrLckr 7, { busy.port with lckr := 7 }),
        (0x420#32, .wrAfrl 7, { busy.port with afrl := 7 }), (0x424#32, .wrAfrh 7, { busy.port with afrh := 7 })] ∧
    Consistent busy := by decide

theorem witness_UnusedOffsetsReadZeroAndIgnoreWrites : 0x028 ≤ (0x028#10).toNat ∧ 0x028 ≤ (0x3FF#10).toNat := by decide

/-- Consistent, with a pin for each clause: an output, an overridden pin, one that is neither. -/
theorem witness_ConsistentWritesReachOnlyTheirPins :
    Consistent busy ∧ IsOutput busy.port 0 ∧ busy.port.ovrEn.getLsbD 3 = true ∧ ¬IsOutput busy.port 2 ∧
    Instr.wrAfrh 1 ∈ [Instr.wrOtyper 1, .wrOspeedr 1, .wrLckr 1, .wrAfrl 1, .wrAfrh 1] ∧
    Instr.wrBsrr 1 ∈ [Instr.wrOdr 1, .wrBsrr 1] ∧
    (∃ t, exec (.wrModer 0x5) busy = .next t ∧ (IsOutput busy.port 0 ↔ IsOutput t.port 0)) :=
  ⟨by decide, by decide, by decide, by decide, by decide, by decide, _, rfl, by decide⟩

theorem witness_ModeSwitchEdges :
    (2 < busy.pinCount ∧ (0x10#32).extractLsb' (2 * 2) 2 = 1#2 ∧ busy.port.ovrEn.getLsbD 2 = false) ∧
    (3 < busy.pinCount ∧ (0x10#32).extractLsb' (2 * 3) 2 ≠ 1#2) ∧
    (Consistent busy ∧ 3 < busy.pinCount ∧ busy.port.ovrEn.getLsbD 3 = true) := by decide

theorem witness_LineLowDrivesThePinLow : (0#4).toNat < busy.pinCount ∧ (15#4).toNat < State.reset.pinCount := by decide

theorem witness_LineHighDrivesThePinHigh : (3#4).toNat < busy.pinCount ∧ (15#4).toNat < State.reset.pinCount := by decide

theorem witness_LineReleaseFallsBack : (1#4).toNat < busy.pinCount ∧ IsOutput busy.port (1#4).toNat ∧
    (3#4).toNat < busy.pinCount ∧ ¬IsOutput busy.port (3#4).toNat := by decide

theorem witness_LinePinAtOrAboveNIsRefused : busy.pinCount ≤ (4#4).toNat ∧ busy.pinCount ≤ (15#4).toNat := by decide

theorem witness_LineEventsReachOnlyTheOverride :
    isRead .rdIdr = true ∧ Instr.lineRelease 3 ∈ [Instr.lineLow 3, .lineHigh 3, .lineRelease 3] ∧
    (∃ t, exec (.wrModer 0) busy = .next t ∧ overwritesAll (.wrModer 0) = false ∧ linePin (.wrModer 0) = none) ∧
    (∃ t, exec (.lineRelease 1) busy = .next t ∧ overwritesAll (.lineRelease 1) = false ∧
      (∀ p : PinOperand, p.toNat = 3 → Instr.lineRelease 1 ≠ .lineRelease p) ∧ busy.port.ovrEn.getLsbD 3 = true) ∧
    (3#4).toNat < busy.pinCount :=
  ⟨rfl, by decide, ⟨_, rfl, rfl, rfl⟩, ⟨_, rfl, rfl, by decide, by decide⟩, by decide⟩

theorem witness_ResetZeroesEverything : 0x018#10 ∈ definedOffsets := by decide

theorem witness_ConstructionLeavesTheResetState :
    (1 ≤ 1 ∧ 1 ≤ 16) ∧ (1 ≤ 16 ∧ 16 ≤ 16) ∧ ((0 : Nat) = 0 ∨ 16 < 0) ∧ ((17 : Nat) = 0 ∨ 16 < 17) := by decide

theorem witness_SnapshotRoundTrip : VectorsInRange busy ∧ busy.pinCount ≤ 16 ∧ (portOn 4 Port.zero).pinCount = busy.pinCount ∧
    (∀ j, j < 32 → busy.pinCount ≤ j → (0xF#32).getLsbD j = false) := by decide

theorem witness_StaleIdrLastsUntilTheNextTrigger :
    isTrigger (.lineHigh 3) = true ∧ withinContract busy.pinCount (.lineHigh 3) = true ∧
    isTrigger (.wrIdr 0) = false ∧ overwritesAll (.wrIdr 0) = false := by decide

/-- A pin for each precedence clause, and the first bit that is no pin's. -/
theorem witness_PassWritesResolvedLevels :
    (1 < 4 ∧ busy.port.ovrEn.getLsbD 1 = true) ∧
    (0 < 4 ∧ busy.port.ovrEn.getLsbD 0 = false ∧ IsOutput busy.port 0) ∧
    (2 < 4 ∧ busy.port.ovrEn.getLsbD 2 = false ∧ ¬IsOutput busy.port 2) ∧ 4 ≤ 4 := by decide

theorem witness_EdgeExactlyOnOutputChange :
    Event.edge 0 false ∈ (resolvePass 4 { busy.port with odr := 2 }).2 := by decide

theorem witness_ConflictExactlyOnOverriddenOutput :
    Event.diag (.driveConflict 1) ∈ (resolvePass 4 busy.port).2 := by decide

theorem witness_PassOrderIsImmaterial : [1, 0, 2].Perm (List.range 3) := by decide

theorem witness_TracesAreInPinOrder :
    ∃ t, exec (.wrOdr 2) busy = .next t ∧ t.events = [.edge 0 false, .diag (.driveConflict 1)] := ⟨_, rfl, by decide⟩

theorem witness_AtMostOneEdgePerPin :
    ∃ t, exec (.wrOdr 2) busy = .next t ∧ 0 ∈ t.events.filterMap edgePin := ⟨_, rfl, by decide⟩

theorem witness_ConflictRepeatsOnEveryTrigger :
    isTrigger (.wrAfrl 7) = true ∧ withinContract busy.pinCount (.wrAfrl 7) = true ∧ 1 < busy.pinCount ∧
    (portLeft (exec (.wrAfrl 7) busy)).all (fun p => decide (IsOutput p 1) && p.ovrEn.getLsbD 1) = true := by decide

/-- Pin 1 shows low although ODR asks high; pin 3 shows high although it has no pull-up. -/
theorem witness_IndirectlyVisibleOverride :
    isTrigger (.wrAfrl 7) = true ∧ (∃ t, exec (.wrAfrl 7) busy = .next t ∧ 3 < busy.pinCount ∧
      (IsOutput t.port 1 ∧ t.port.idr.getLsbD 1 ≠ t.port.odr.getLsbD 1) ∧
      (¬IsOutput t.port 3 ∧ t.port.idr.getLsbD 3 ≠ decide (t.port.pupdr.extractLsb' (2 * 3) 2 = 1#2))) :=
  ⟨rfl, _, rfl, by decide, by decide, by decide⟩

theorem witness_RequestedLevelAndPullAreHidden :
    Consistent busy ∧ (2 < busy.pinCount ∧ busy.port.ovrEn.getLsbD 2 = false ∧ ¬IsOutput busy.port 2) ∧
    (0 < busy.pinCount ∧ busy.port.ovrEn.getLsbD 0 = false ∧ IsOutput busy.port 0) ∧
    (0x10#32).extractLsb' (2 * 2) 2 = 1#2 ∧ (0x10#32).extractLsb' (2 * 0) 2 ≠ 1#2 := by decide

theorem witness_StepKeepsTheInvariant :
    Inv { busy with pending := [.words [0x803#32]] } ∧ ∃ t, step { busy with pending := [.words [0x803#32]] } = .next t :=
  ⟨by decide, _, rfl⟩

theorem witness_ConsistencyIsLostOnlyByRestore :
    (∃ t, exec .rdIdr busy = .next t ∧ Consistent busy) ∧
    (∃ t, exec (.wrBsrr 0) { busy with port := { busy.port with idr := 0 } } = .next t ∧ isTrigger (.wrBsrr 0) = true) ∧
    (∃ t, exec .reset { busy with port := { busy.port with idr := 0 } } = .next t) ∧
    (∀ f, Instr.reset ≠ .restore f) :=
  ⟨⟨_, rfl, by decide⟩, ⟨_, rfl, rfl⟩, ⟨_, rfl⟩, nofun⟩

theorem witness_StoredOnlyRegistersAreDecorative :
    AgreeOnResolver busy.port { busy.port with otyper := 1, ospeedr := 2, lckr := 3, afrl := 4, afrh := 5 } ∧
    readsStoredOnly .rdIdr = false := ⟨⟨rfl, rfl, rfl, rfl, rfl, rfl⟩, rfl⟩

theorem witness_OnlyItsOwnWritesChangeARegister :
    ∃ t, exec (.wrModer 0) busy = .next t ∧ overwritesAll (.wrModer 0) = false ∧ t.port.moder ≠ busy.port.moder ∧
      t.port.idr ≠ busy.port.idr :=
  ⟨_, rfl, rfl, by decide, by decide⟩

/-- Each other clause: an operation that changes the item. -/
theorem witness_OnlyItsOwnWritesChangeARegister_each :
    (portLeft (exec (.wrOtyper 1) busy)).map (·.otyper) ≠ some busy.port.otyper ∧
    (portLeft (exec (.wrOspeedr 1) busy)).map (·.ospeedr) ≠ some busy.port.ospeedr ∧
    (portLeft (exec (.wrPupdr 1) busy)).map (·.pupdr) ≠ some busy.port.pupdr ∧
    (portLeft (exec (.wrOdr 1) busy)).map (·.odr) ≠ some busy.port.odr ∧
    (portLeft (exec (.wrBsrr 0x8000) busy)).map (·.odr) ≠ some busy.port.odr ∧
    (portLeft (exec (.wrLckr 1) busy)).map (·.lckr) ≠ some busy.port.lckr ∧
    (portLeft (exec (.wrAfrl 1) busy)).map (·.afrl) ≠ some busy.port.afrl ∧
    (portLeft (exec (.wrAfrh 1) busy)).map (·.afrh) ≠ some busy.port.afrh ∧
    (portLeft (exec (.lineRelease 3) busy)).map (·.ovrEn) ≠ some busy.port.ovrEn ∧
    (portLeft (exec (.lineLow 3) busy)).map (·.ovrVal) ≠ some busy.port.ovrVal ∧
    (portLeft (exec (.lineHigh 1) busy)).map (·.ovrVal) ≠ some busy.port.ovrVal := by decide

theorem witness_IdrBitsOfNoPinAreKept :
    ∃ t, exec (.wrModer 0) busy = .next t ∧ overwritesAll (.wrModer 0) = false ∧ busy.pinCount ≤ 4 := ⟨_, rfl, rfl, by decide⟩

theorem witness_EdgesComeOnlyFromOutputPins :
    ∃ t, exec (.wrOdr 2) busy = .next t ∧ Event.edge 0 false ∈ t.events := ⟨_, rfl, by decide⟩

theorem witness_BadOffsetComesAlone :
    ∃ t, exec (.wrUnknown 0x030 1) busy = .next t ∧ Event.diag (.badOffsetWrite 0x030 1) ∈ t.events ∧
      ∀ p, Diag.badOffsetWrite 0x030 1 ≠ .driveConflict p := ⟨_, rfl, by decide, nofun⟩

/-- A reserved selector, and the integer form at both ends of the pins of the port. -/
theorem witness_UndecodablePacketsAndIntegerPinsAreRefused :
    decode [0xC03#32] = .error (.reservedSystem 0xC03#12) ∧ (∃ s : State, s.pending = .words [0xC03#32] :: []) ∧
    (∃ s : State, s.pending = .setLevel 4 1 :: [] ∧ (1 : Int) ≤ 1 ∧ (s.pinCount : Int) ≤ 4) ∧
    (∃ s : State, s.pending = .setLevel (-1) (-1) :: [] ∧ (-1 : Int) ≤ 1 ∧ (-1 : Int) < 0) :=
  ⟨rfl, ⟨{ busy with pending := _ }, rfl⟩, ⟨{ busy with pending := _ }, rfl, by decide⟩,
    ⟨{ busy with pending := _ }, rfl, by decide⟩⟩

theorem witness_LockAndElectricalRegistersChangeOnlyTheirReadBack :
    (Instr.rdOtyper ≠ StoredOnly.lckr.read ∧ Instr.rdOtyper ≠ .save) ∧ Instr.rdLckr = StoredOnly.lckr.read ∧
    (Instr.wrModer 0x1, Port.moder) ∈ [(Instr.wrModer 0x1, Port.moder), (.wrOtyper 0x1, Port.otyper)] :=
  ⟨by decide, rfl, .head _⟩

/-- Both checks fail: the level is what the refusal names (log 6). -/
theorem test_level_before_pin : step { busy with pending := [.setLevel 99 2] } = .refused (.lineLevel 2) := rfl

end Sys2Proof.Tests
end

section
/-! PROOF. The register window as memory (spec 20_memory.md): what a bus read returns and reports at any offset, and the
statements of R44 and R49. -/

namespace Sys2Proof.Proofs

open Sys2Proof.Machine Sys2Proof.Laws

/-- The word a port returns for a register (R81 to R90): BSRR reads 0. -/
def registerWord (p : Port) : RegName → Word
  | .moder => p.moder
  | .otyper => p.otyper
  | .ospeedr => p.ospeedr
  | .pupdr => p.pupdr
  | .idr => p.idr
  | .odr => p.odr
  | .bsrr => 0x00000000#32
  | .lckr => p.lckr
  | .afrl => p.afrl
  | .afrh => p.afrh

/-- The word a port returns for an offset of the window: 0 where there is no register (R91). -/
def readWord (p : Port) (off : Offset) : Word :=
  match registerAt off with
  | some r => registerWord p r
  | none => 0x00000000#32

/-- The trace of a read: the report of an unknown offset, and nothing else (R49, R91). -/
def readReport (off : Offset) : List Event :=
  match registerAt off with
  | some _ => []
  | none => [.diag (.badOffsetRead off)]

theorem exec_rdUnknown (off : Offset) (s : State) : exec (.rdUnknown off) s =
    .next { s with events := [.diag (.badOffsetRead off)], result := .value 0x00000000#32 } := rfl

theorem exec_wrUnknown (off : Offset) (v : Word) (s : State) : exec (.wrUnknown off v) s =
    .next { s with events := [.diag (.badOffsetWrite off v)], result := .noValue } := rfl

/-- What a read does, said once for the whole window: its trace and its returned word are all it leaves (R80, R91). -/
theorem exec_readAt (off : Offset) (s : State) : exec (readAt off) s =
    .next { s with events := readReport off, result := .value (readWord s.port off) } := by
  unfold readAt readReport readWord
  cases registerAt off with
  | none => exact exec_rdUnknown off s
  | some r => cases r <;> rfl

theorem readReport_of_defined {off : Offset} (h : off ∈ definedOffsets) : readReport off = [] := by
  unfold readReport
  cases hr : registerAt off with
  | none => exact absurd h ((registerAt_eq_none off).1 hr)
  | some r => rfl

theorem eq_badOffsetRead_of_mem_readReport {off : Offset} {e : Event} (h : e ∈ readReport off) :
    e = .diag (.badOffsetRead off) := by
  unfold readReport at h
  cases hr : registerAt off with
  | none => simpa [hr] using h
  | some r => simp [hr] at h

/-- The register map ends below 0x028 (R41, R44). -/
theorem not_mem_definedOffsets_of_ge {off : Offset} (h : 0x028 ≤ off.toNat) : off ∉ definedOffsets := by
  have below : ∀ o ∈ definedOffsets, o.toNat < 0x028 := by decide
  intro hmem
  exact absurd (below off hmem) (Nat.not_lt.2 h)

/-- Settles O14: a read leaves the port as it was, and both what it returns and what it reports depend on the port and the
offset alone. -/
theorem readsChangeNothing : Obligations.ReadsChangeNothing := by
  intro s off
  exact ⟨readAt off, _, _, readWord s.port off, decode_readWord off, exec_readAt off s, rfl, rfl, readReport_of_defined,
    fun _ => eq_badOffsetRead_of_mem_readReport, exec_readAt off _, rfl, rfl⟩

/-- Settles O21: such an offset is none of the ten defined ones, so it decodes to the unknown read and the unknown write. -/
theorem unusedOffsetsReadZeroAndIgnoreWrites : Obligations.UnusedOffsetsReadZeroAndIgnoreWrites := by
  intro s off v hoff
  have hunknown := not_mem_definedOffsets_of_ge hoff
  have hread := readAt_unknown hunknown ▸ decode_readWord off
  have hwrite := writeAt_unknown hunknown v ▸ decode_writeWord off v
  exact ⟨_, _, _, _, hread, exec_rdUnknown off s, rfl, rfl, List.mem_singleton_self _, hwrite, exec_wrUnknown off v s, rfl,
    List.mem_singleton_self _⟩

end Sys2Proof.Proofs
end

section
/-! PROOF. The registers that are stored and read back only (spec 40_register_access.md): a write is one pass from the updated
port, the pass neither reads nor writes the register, and the statements of R88 to R90, R94, R95 and R100 to R102 follow. -/

namespace Sys2Proof.Proofs

open Sys2Proof.Machine Sys2Proof.Laws Sys2Proof.Safety

/-- The register's place in the map (R41). -/
def storedOffset : StoredOnly → Offset
  | .otyper => offsetOf .otyper
  | .ospeedr => offsetOf .ospeedr
  | .lckr => offsetOf .lckr
  | .afrl => offsetOf .afrl
  | .afrh => offsetOf .afrh

theorem readAt_storedOffset (r : StoredOnly) : readAt (storedOffset r) = r.read := by cases r <;> rfl

/-- The write of a stored-only register is a trigger that starts from the port with the word put (R94, R95, R100 to R102). -/
theorem exec_writeAt_storedOffset (r : StoredOnly) (v : Word) (s : State) :
    exec (writeAt (storedOffset r) v) s = .next (passed s (r.put v s.port)) := by
  cases r <;> rfl

@[simp] theorem readWord_put (r : StoredOnly) (v : Word) (p : Port) : readWord (r.put v p) (storedOffset r) = v := by
  cases r <;> rfl

@[simp] theorem resolvedLevel_put (r : StoredOnly) (v : Word) (p : Port) (i : Nat) :
    resolvedLevel (r.put v p) i = resolvedLevel p i := by
  rw [← pinLevel_eq, pinLevel_put, pinLevel_eq]

/-- The pass a write runs keeps the word the write stored (R116). -/
theorem readWord_passed_put (r : StoredOnly) (v : Word) (s : State) :
    readWord (passed s (r.put v s.port)).port (storedOffset r) = v := by
  rw [passed_port, resolvePass_put, readWord_put]

theorem read_after_storedOnly_write (r : StoredOnly) (v : Word) (s : State) :
    ∃ t u, exec (writeAt (storedOffset r) v) s = .next t ∧ exec r.read t = .next u ∧ u.result = .value v := by
  refine ⟨_, _, exec_writeAt_storedOffset r v s, readAt_storedOffset r ▸ exec_readAt _ _, ?_⟩
  exact congrArg Result.value (readWord_passed_put r v s)

/-- A consistent port is still consistent with a stored-only register replaced, so the pass finds nothing to change. -/
theorem passed_put_of_consistent (r : StoredOnly) (v : Word) {s : State} (hc : Consistent s) :
    (passed s (r.put v s.port)).port.idr = s.port.idr ∧ ∀ j b, Event.edge j b ∉ (passed s (r.put v s.port)).events := by
  have hput : ∀ i, i < s.pinCount → (r.put v s.port).idr.getLsbD i = resolvedLevel (r.put v s.port) i := by
    simpa using hc
  obtain ⟨hport, hedges⟩ := resolvePass_consistent hput
  exact ⟨by rw [passed_port, hport, put_idr], hedges⟩

/-- What R94, R95 and R100 to R102 each say of their register. -/
theorem storedOnly_write_resolves (r : StoredOnly) (v : Word) (s : State) :
    decode [0x400#32 ||| (storedOffset r).setWidth 32, v] = .ok (writeAt (storedOffset r) v) ∧
    ∃ t, exec (writeAt (storedOffset r) v) s = .next t ∧ AfterPass s (r.put v s.port) t ∧
      (Consistent s → t.port.idr = s.port.idr ∧ ∀ j b, Event.edge j b ∉ t.events) :=
  ⟨decode_writeWord _ v, _, exec_writeAt_storedOffset r v s, passed_afterPass _ _, passed_put_of_consistent r v⟩

/-- Settles O13: the reads are the window's read at the three offsets, and the pass of a write keeps the word. -/
theorem lockAndFunctionRegistersReadBack : Obligations.LockAndFunctionRegistersReadBack := by
  refine ⟨decode_readWord (storedOffset .lckr), decode_readWord (storedOffset .afrl), decode_readWord (storedOffset .afrh),
    ?_⟩
  intro s
  refine ⟨exec_readAt (storedOffset .lckr) s, exec_readAt (storedOffset .afrl) s, exec_readAt (storedOffset .afrh) s, ?_⟩
  intro v
  exact ⟨read_after_storedOnly_write .lckr v s, read_after_storedOnly_write .afrl v s, read_after_storedOnly_write .afrh v s⟩

/-- Settles O17: each row of the list is one of the five stored-only registers. -/
theorem storedOnlyRegisterWritesResolve : Obligations.StoredOnlyRegisterWritesResolve := by
  intro s v sel i p hrow
  simp only [List.mem_cons, List.not_mem_nil, or_false, Prod.mk.injEq] at hrow
  obtain ⟨rfl, rfl, rfl⟩ | ⟨rfl, rfl, rfl⟩ | ⟨rfl, rfl, rfl⟩ | ⟨rfl, rfl, rfl⟩ | ⟨rfl, rfl, rfl⟩ := hrow
  · exact storedOnly_write_resolves .otyper v s
  · exact storedOnly_write_resolves .ospeedr v s
  · exact storedOnly_write_resolves .lckr v s
  · exact storedOnly_write_resolves .afrl v s
  · exact storedOnly_write_resolves .afrh v s

end Sys2Proof.Proofs
end

section
/-! PROOF. The resolution pass (spec 41_pin_resolver.md): the level function and the conflict condition as formulas, IDR after a
pass by cases, and the statements of R112, R113, R115 and R116. -/

namespace Sys2Proof.Proofs

open Sys2Proof.Machine Sys2Proof.Laws Sys2Proof.Safety

/-- R115's formula over the named modes and pulls: every mode but Output falls back to the pull. -/
theorem level_eq (mode : PinMode) (pull : Pull) (requested overridden ovalue : Bool) :
    level mode pull requested overridden ovalue =
      if overridden = true then ovalue else if mode = .output then requested else decide (pull = .up) := by
  cases overridden with
  | true => rfl
  | false => cases mode <;> rfl

theorem conflicts_iff (mode : PinMode) (overridden : Bool) :
    conflicts mode overridden = true ↔ overridden = true ∧ mode = .output := by
  rw [conflicts, Bool.and_eq_true, decide_eq_true_iff, and_comm]

theorem resolvePass_idr_of_lt {n i : Nat} (h : i < n) (p : Port) :
    (resolvePass n p).1.idr.getLsbD i = resolvedLevel p i := by
  rw [resolvePass_idr, if_pos h]

theorem resolvePass_idr_of_ge {n i : Nat} (h : n ≤ i) (p : Port) :
    (resolvePass n p).1.idr.getLsbD i = p.idr.getLsbD i := by
  rw [resolvePass_idr, if_neg (Nat.not_lt.2 h)]

/-- The conflict condition reads MODER and `ovr_en` alone, and a pass writes neither. -/
theorem conflict_mem_second_pass (n : Nat) (p : Port) (i : Nat) :
    Event.diag (.driveConflict i) ∈ (resolvePass n (resolvePass n p).1).2 ↔
      Event.diag (.driveConflict i) ∈ (resolvePass n p).2 := by
  rw [conflict_mem_resolvePass, conflict_mem_resolvePass, resolvePass_others]

/-- Settles O37: the fields' named values stand for 1 exactly where the formula compares with 1. -/
theorem levelFunctionTable : Obligations.LevelFunctionTable := by
  intro mode pull requested overridden ovalue
  constructor
  · simp only [level_eq, modeOf_eq_output, pullOf_eq_up]
  · rw [conflicts_iff, modeOf_eq_output]

/-- Settles O38: below N the bit is the resolved level, whose three cases are the precedence; from N on it is the old bit. -/
theorem passWritesResolvedLevels : Obligations.PassWritesResolvedLevels := by
  intro n p
  refine ⟨resolvePass_others n p, fun i _ => ⟨fun hi hov => ?_, fun hi hov hout => ?_, fun hi hov hout => ?_, fun hi => ?_⟩⟩
  · exact (resolvePass_idr_of_lt hi p).trans (resolvedLevel_of_overridden hov)
  · exact (resolvePass_idr_of_lt hi p).trans (resolvedLevel_of_output hov hout)
  · exact (resolvePass_idr_of_lt hi p).trans (resolvedLevel_of_not_output hov hout)
  · exact resolvePass_idr_of_ge hi p

/-- Settles O40: a conflict names an overridden pin below N, so its level is the override value, and the next pass finds the
same mode and override bit. -/
theorem conflictExactlyOnOverriddenOutput : Obligations.ConflictExactlyOnOverriddenOutput := by
  intro n p i
  refine ⟨conflict_mem_resolvePass n p i, fun hconflict => ?_⟩
  obtain ⟨hi, -, hov⟩ := (conflict_mem_resolvePass n p i).1 hconflict
  have hlevel := (resolvePass_idr_of_lt hi p).trans (resolvedLevel_of_overridden hov)
  exact ⟨hlevel, resolvePass_others n p, (conflict_mem_second_pass n p i).2 hconflict⟩

end Sys2Proof.Proofs
end

section
/-! PROOF. The edge notifier (spec 42_edge_notifier.md): the statement of R126, from the pass's law of edges. -/

namespace Sys2Proof.Proofs

open Sys2Proof.Machine Sys2Proof.Laws Sys2Proof.Safety

/-- R126 in terms of IDR before and after the pass: below N the resolved level is the pin's IDR bit after it. -/
theorem edge_mem_resolvePass_iff_idr_changed (n : Nat) (p : Port) (i : Nat) (b : Bool) :
    Event.edge i b ∈ (resolvePass n p).2 ↔ i < n ∧ IsOutput p i ∧
      b = (resolvePass n p).1.idr.getLsbD i ∧ (resolvePass n p).1.idr.getLsbD i ≠ p.idr.getLsbD i := by
  rw [edge_mem_resolvePass]
  refine and_congr_right fun hi => and_congr_right fun _ => ?_
  rw [resolvePass_idr_of_lt hi]
  exact and_congr_right fun hb => by rw [hb]

/-- Settles O39: an edge carries the pin's IDR bit after the pass, and a bit that differs from the old one is its complement. -/
theorem edgeExactlyOnOutputChange : Obligations.EdgeExactlyOnOutputChange := by
  intro n p i b
  refine ⟨edge_mem_resolvePass_iff_idr_changed n p i b, fun hedge => ?_⟩
  obtain ⟨-, -, -, hne⟩ := (edge_mem_resolvePass n p i b).1 hedge
  exact Bool.eq_not.2 hne

end Sys2Proof.Proofs
end

section
/-! PROOF. The integer form of a line event (spec 43_external_line.md): the statement of R140. -/

namespace Sys2Proof.Proofs

open Sys2Proof.Machine Sys2Proof.Laws

theorem lineValueOf_of_neg {l : Int} (h : l < 0) : lineValueOf l = .ok .release := if_pos h

/-- A step on a call in the integer form runs what the call with the mapped value invokes (R140). -/
theorem step_setLevel {s : State} {rest : List Request} {pin l : Int} {v : LineValue} {i : Instr}
    (hpending : s.pending = .setLevel pin l :: rest) (hlevel : lineValueOf l = .ok v)
    (hcall : requestInstr (.setLine pin v) = .ok i) : step s = exec i { s with pending := rest } :=
  step_of_fetch (fetch_ok hpending ((requestInstr_setLevel hlevel).trans hcall))

/-- Settles O8: each of the three ranges of levels maps to one line value, and the call runs that value's line event. -/
theorem integerLevelsMapToLineValues : Obligations.IntegerLevelsMapToLineValues := by
  intro s rest p l hpending
  refine ⟨fun hneg => ?_, fun hzero => ?_, fun hone => ?_⟩
  · exact step_setLevel hpending (lineValueOf_of_neg hneg) (requestInstr_setLine p .release)
  · subst hzero
    exact step_setLevel hpending rfl (requestInstr_setLine p .driveLow)
  · subst hone
    exact step_setLevel hpending rfl (requestInstr_setLine p .driveHigh)

end Sys2Proof.Proofs
end

section
/-! PROOF. Driving a pin (spec 43_external_line.md): the two drive events are one argument over the level, and the statements of
R136 and R137 are its two cases. -/

namespace Sys2Proof.Proofs

open Sys2Proof.Machine Sys2Proof.Laws Sys2Proof.Safety

/-- The line event that drives a pin to a level (R136, R137). -/
def driveInstr (p : PinOperand) : Bool → Instr
  | false => .lineLow p
  | true => .lineHigh p

theorem exec_driveInstr {s : State} {p : PinOperand} (h : p.toNat < s.pinCount) (b : Bool) :
    exec (driveInstr p b) s = .next (passed s (drive s.port p.toNat b)) := by
  cases b <;> exact lineEvent_of_lt h _

/-- Every pin operand has a bit in the override vectors. -/
theorem setBit_getLsbD_pin (v : BitVec 16) (p : PinOperand) (b : Bool) : (setBit v p.toNat b).getLsbD p.toNat = b := by
  rw [setBit_getLsbD, if_pos ⟨rfl, p.isLt⟩]

theorem setBit_getLsbD_of_lt {w j : Nat} (hj : j < w) (v : BitVec w) (i : Nat) (b : Bool) :
    (setBit v i b).getLsbD j = if j = i then b else v.getLsbD j := by
  simp only [setBit_getLsbD, hj, and_true]

theorem setBit_getLsbD_of_ne {w i j : Nat} (h : j ≠ i) (v : BitVec w) (b : Bool) :
    (setBit v i b).getLsbD j = v.getLsbD j := by
  rw [setBit_getLsbD, if_neg fun hj => h hj.1]

theorem setBit_eq_self {w i : Nat} {v : BitVec w} {b : Bool} (h : v.getLsbD i = b) : setBit v i b = v := by
  refine BitVec.eq_of_getLsbD_eq fun j hj => ?_
  rw [setBit_getLsbD_of_lt hj]
  split
  · next hji => rw [hji, h]
  · rfl

/-- The override wins over mode, pull and ODR (R136). -/
theorem resolvedLevel_drive (q : Port) (p : PinOperand) (b : Bool) :
    resolvedLevel (drive q p.toNat b) p.toNat = b :=
  (resolvedLevel_of_overridden (setBit_getLsbD_pin _ p true)).trans (setBit_getLsbD_pin _ p b)

theorem passed_ovrEn (s : State) (q : Port) : (passed s q).port.ovrEn = q.ovrEn := by rw [passed_others]

theorem passed_ovrVal (s : State) (q : Port) : (passed s q).port.ovrVal = q.ovrVal := by rw [passed_others]

/-- A pin driven to a level it already has finds its override bits in place. -/
theorem drive_passed_drive (s : State) (q : Port) (p : PinOperand) (b : Bool) :
    drive (passed s (drive q p.toNat b)).port p.toNat b = (passed s (drive q p.toNat b)).port := by
  have hen : setBit (passed s (drive q p.toNat b)).port.ovrEn p.toNat true = _ :=
    setBit_eq_self (by rw [passed_ovrEn, drive_ovrEn, setBit_getLsbD_pin])
  have hval : setBit (passed s (drive q p.toNat b)).port.ovrVal p.toNat b = _ :=
    setBit_eq_self (by rw [passed_ovrVal, drive_ovrVal, setBit_getLsbD_pin])
  rw [drive, hen, hval]

/-- A pass leaves a consistent port (R22). -/
theorem passed_consistent (s : State) (q : Port) : Consistent (passed s q) := by
  intro i hi
  rw [passed_pinCount] at hi
  rw [passed_idr, if_pos hi, passed_resolvedLevel]

/-- Driving a pin again is a second pass from where the first ended. -/
theorem exec_driveInstr_again {s t : State} {p : PinOperand} {b : Bool} (h : p.toNat < s.pinCount)
    (hfirst : exec (driveInstr p b) s = .next t) : exec (driveInstr p b) t = .next (passed t t.port) := by
  rw [exec_driveInstr h] at hfirst
  cases hfirst
  exact (exec_driveInstr (s := passed s _) h b).trans (by rw [drive_passed_drive])

theorem passed_drive_idr {s : State} {p : PinOperand} (h : p.toNat < s.pinCount) (q : Port) (b : Bool) :
    (passed s (drive q p.toNat b)).port.idr.getLsbD p.toNat = b := by
  rw [passed_idr, if_pos h, resolvedLevel_drive]

theorem conflict_mem_passed_drive {s : State} {p : PinOperand} (h : p.toNat < s.pinCount) (q : Port) (b : Bool) :
    Event.diag (.driveConflict p.toNat) ∈ (passed s (drive q p.toNat b)).events ↔ IsOutput q p.toNat := by
  rw [conflict_mem_passed]
  exact ⟨fun ⟨_, hout, _⟩ => hout, fun hout => ⟨h, hout, setBit_getLsbD_pin _ p true⟩⟩

theorem edge_mem_passed_drive {s : State} {p : PinOperand} (h : p.toNat < s.pinCount) (q : Port) (b c : Bool) :
    Event.edge p.toNat c ∈ (passed s (drive q p.toNat b)).events ↔
      c = b ∧ IsOutput q p.toNat ∧ q.idr.getLsbD p.toNat = !b := by
  rw [edge_mem_passed, resolvedLevel_drive, drive_idr]
  constructor
  · rintro ⟨-, hout, rfl, hne⟩
    exact ⟨rfl, hout, Bool.eq_not.2 hne.symm⟩
  · rintro ⟨rfl, hout, hidr⟩
    exact ⟨h, hout, rfl, (Bool.eq_not.1 hidr).symm⟩

/-- What R136 and R137 each say of their pin. -/
theorem drive_event_laws {s : State} {p : PinOperand} (h : p.toNat < s.pinCount) (b : Bool) :
    ∃ t q u, exec (driveInstr p b) s = .next t ∧
      q = { s.port with ovrEn := q.ovrEn, ovrVal := q.ovrVal } ∧
      (∀ j, j < 16 → q.ovrEn.getLsbD j = if j = p.toNat then true else s.port.ovrEn.getLsbD j) ∧
      (∀ j, j < 16 → q.ovrVal.getLsbD j = if j = p.toNat then b else s.port.ovrVal.getLsbD j) ∧
      AfterPass s q t ∧
      t.port.idr.getLsbD p.toNat = b ∧
      (Event.diag (.driveConflict p.toNat) ∈ t.events ↔ IsOutput s.port p.toNat) ∧
      (∀ c, Event.edge p.toNat c ∈ t.events ↔
        c = b ∧ IsOutput s.port p.toNat ∧ s.port.idr.getLsbD p.toNat = !b) ∧
      exec (driveInstr p b) t = .next u ∧ u.port = t.port ∧ (∀ j c, Event.edge j c ∉ u.events) ∧
      (Event.diag (.driveConflict p.toNat) ∈ u.events ↔ IsOutput s.port p.toNat) := by
  obtain ⟨hport, hedges⟩ := resolvePass_consistent (passed_consistent s (drive s.port p.toNat b))
  have hfirst := exec_driveInstr h b
  have hconflict := conflict_mem_passed_drive h s.port b
  exact ⟨passed s (drive s.port p.toNat b), drive s.port p.toNat b, _, hfirst, rfl,
    fun j hj => setBit_getLsbD_of_lt hj _ _ _, fun j hj => setBit_getLsbD_of_lt hj _ _ _,
    passed_afterPass _ _, passed_drive_idr h _ b, hconflict, edge_mem_passed_drive h _ b,
    exec_driveInstr_again h hfirst, hport, hedges, (conflict_mem_second_pass _ _ _).trans hconflict⟩

/-- Settles O25: the drive to low. -/
theorem lineLowDrivesThePinLow : Obligations.LineLowDrivesThePinLow := by
  intro s p h
  exact ⟨lineSel_word .driveLow p ▸ decode_lineSel .driveLow p, drive_event_laws h false⟩

/-- Settles O26: the drive to high; whatever port a drive to low leaves, the drive to high sets the pin's bit of it. -/
theorem lineHighDrivesThePinHigh : Obligations.LineHighDrivesThePinHigh := by
  intro s p h
  have hlow := exec_driveInstr h false
  have hhigh := exec_driveInstr (s := passed s (drive s.port p.toNat false)) h true
  exact ⟨lineSel_word .driveHigh p ▸ decode_lineSel .driveHigh p, drive_event_laws h true, _, _, hlow, hhigh,
    passed_drive_idr h _ true⟩

end Sys2Proof.Proofs
end

section
/-! PROOF. What a line event cannot do and what keeps an override (spec 43_external_line.md): the statement of R141. -/

namespace Sys2Proof.Proofs

open Sys2Proof.Machine Sys2Proof.Laws Sys2Proof.Safety

theorem linePin_eq_some (i : Instr) (p : PinOperand) :
    linePin i = some p ↔ i = .lineLow p ∨ i = .lineHigh p ∨ i = .lineRelease p := by
  cases i <;> simp [linePin]

/-- A line event below N completes whatever the registers hold: it is one pass from its updated port (R135). -/
theorem exec_line {i : Instr} {p : PinOperand} {s : State} (hline : linePin i = some p) (h : p.toNat < s.pinCount) :
    exec i s = .next (passed s (updatedPort i s.port)) := by
  obtain rfl | rfl | rfl := (linePin_eq_some i p).1 hline <;> exact lineEvent_of_lt h _

/-- A line event touches nothing but the override vectors before its pass. -/
theorem updatedPort_line {i : Instr} {p : PinOperand} (hline : linePin i = some p) (q : Port) :
    updatedPort i q = { q with ovrEn := (updatedPort i q).ovrEn, ovrVal := (updatedPort i q).ovrVal } := by
  obtain rfl | rfl | rfl := (linePin_eq_some i p).1 hline <;> rfl

/-- A line event leaves every other pin's override as it is. -/
theorem updatedPort_line_other_pin {i : Instr} {p : PinOperand} {j : Nat} (hline : linePin i = some p) (hj : j ≠ p.toNat)
    (q : Port) : (updatedPort i q).ovrEn.getLsbD j = q.ovrEn.getLsbD j ∧
      (updatedPort i q).ovrVal.getLsbD j = q.ovrVal.getLsbD j := by
  obtain rfl | rfl | rfl := (linePin_eq_some i p).1 hline
  · exact ⟨setBit_getLsbD_of_ne hj _ _, setBit_getLsbD_of_ne hj _ _⟩
  · exact ⟨setBit_getLsbD_of_ne hj _ _, setBit_getLsbD_of_ne hj _ _⟩
  · exact ⟨setBit_getLsbD_of_ne hj _ _, rfl⟩

/-- A trigger that is no line event updates a register, not an override vector. -/
theorem updatedPort_vectors {i : Instr} (hline : linePin i = none) (q : Port) :
    (updatedPort i q).ovrEn = q.ovrEn ∧ (updatedPort i q).ovrVal = q.ovrVal := by
  cases i
  case lineLow | lineHigh | lineRelease => cases hline
  all_goals exact ⟨rfl, rfl⟩

/-- A drive sets the bit of its pin; only a release of the pin clears it. -/
theorem updatedPort_keeps_override {i : Instr} {q : Port} {j : Nat}
    (hrelease : ∀ p : PinOperand, p.toNat = j → i ≠ .lineRelease p) (hon : q.ovrEn.getLsbD j = true) :
    (updatedPort i q).ovrEn.getLsbD j = true := by
  cases hline : linePin i with
  | none => rw [(updatedPort_vectors hline q).1, hon]
  | some p =>
    by_cases hj : j = p.toNat
    · subst hj
      obtain rfl | rfl | rfl := (linePin_eq_some i p).1 hline
      · exact setBit_getLsbD_pin _ p true
      · exact setBit_getLsbD_pin _ p true
      · exact absurd rfl (hrelease p rfl)
    · rw [(updatedPort_line_other_pin hline hj q).1, hon]

/-- A bus read is the window's read of a register, or the unknown read (R81 to R91). -/
theorem isRead_cases {i : Instr} (h : isRead i = true) : (∃ r, i = readAt (offsetOf r)) ∨ ∃ off, i = .rdUnknown off := by
  cases i
  case rdModer => exact .inl ⟨.moder, rfl⟩
  case rdOtyper => exact .inl ⟨.otyper, rfl⟩
  case rdOspeedr => exact .inl ⟨.ospeedr, rfl⟩
  case rdPupdr => exact .inl ⟨.pupdr, rfl⟩
  case rdIdr => exact .inl ⟨.idr, rfl⟩
  case rdOdr => exact .inl ⟨.odr, rfl⟩
  case rdBsrr => exact .inl ⟨.bsrr, rfl⟩
  case rdLckr => exact .inl ⟨.lckr, rfl⟩
  case rdAfrl => exact .inl ⟨.afrl, rfl⟩
  case rdAfrh => exact .inl ⟨.afrh, rfl⟩
  case rdUnknown off => exact .inr ⟨off, rfl⟩
  all_goals cases h

/-- No word of the register window comes from the override vectors. -/
theorem readWord_with_vectors (p : Port) (e v : BitVec 16) (off : Offset) :
    readWord { p with ovrEn := e, ovrVal := v } off = readWord p off := by
  unfold readWord
  cases registerAt off with
  | none => rfl
  | some r => cases r <;> rfl

theorem line_event_reaches_only_override {i : Instr} {p : PinOperand} {s : State} (hline : linePin i = some p)
    (h : p.toNat < s.pinCount) : ∃ t, exec i s = .next t ∧
      t.port = { s.port with idr := t.port.idr, ovrEn := t.port.ovrEn, ovrVal := t.port.ovrVal } ∧
      ∀ j, j ≠ p.toNat → t.port.ovrEn.getLsbD j = s.port.ovrEn.getLsbD j ∧
        t.port.ovrVal.getLsbD j = s.port.ovrVal.getLsbD j := by
  refine ⟨_, exec_line hline h, ?_, fun j hj => ?_⟩
  · rw [passed_others, updatedPort_line hline]
  · rw [passed_ovrEn, passed_ovrVal]
    exact updatedPort_line_other_pin hline hj s.port

theorem read_ignores_override (s : State) {i : Instr} (e v : BitVec 16) (h : isRead i = true) : ∃ t u,
    exec i s = .next t ∧ exec i { s with port := { s.port with ovrEn := e, ovrVal := v } } = .next u ∧
    t.result = u.result := by
  obtain ⟨r, rfl⟩ | ⟨off, rfl⟩ := isRead_cases h
  · exact ⟨_, _, exec_readAt _ _, exec_readAt _ _, congrArg Result.value (readWord_with_vectors s.port e v _).symm⟩
  · exact ⟨_, _, exec_rdUnknown off _, exec_rdUnknown off _, rfl⟩

theorem exec_keeps_vectors {i : Instr} {s t : State} (h : exec i s = .next t) (hover : overwritesAll i = false)
    (hline : linePin i = none) : t.port.ovrEn = s.port.ovrEn ∧ t.port.ovrVal = s.port.ovrVal := by
  obtain ⟨-, -, rfl⟩ | ⟨-, -, hport, -⟩ := exec_cases h
  · rw [passed_ovrEn, passed_ovrVal]
    exact updatedPort_vectors hline s.port
  · rw [hport hover]
    exact ⟨rfl, rfl⟩

theorem exec_keeps_override {i : Instr} {s t : State} {j : Nat} (h : exec i s = .next t) (hover : overwritesAll i = false)
    (hrelease : ∀ p : PinOperand, p.toNat = j → i ≠ .lineRelease p) (hon : s.port.ovrEn.getLsbD j = true) :
    t.port.ovrEn.getLsbD j = true := by
  obtain ⟨-, -, rfl⟩ | ⟨-, -, hport, -⟩ := exec_cases h
  · rw [passed_ovrEn]
    exact updatedPort_keeps_override hrelease hon
  · rw [hport hover, hon]

theorem release_ends_override {s : State} {p : PinOperand} (h : p.toNat < s.pinCount) :
    ∃ t, exec (.lineRelease p) s = .next t ∧ t.port.ovrEn.getLsbD p.toNat = false := by
  refine ⟨_, exec_line rfl h, ?_⟩
  rw [passed_ovrEn]
  exact setBit_getLsbD_pin _ p false

/-- Settles O29: a line event updates its own pin's override and runs a pass, which writes IDR alone; reads, and the operations
between a drive and its release, touch no override vector. -/
theorem lineEventsReachOnlyTheOverride : Obligations.LineEventsReachOnlyTheOverride := by
  refine ⟨fun s p h i hi => ?_, fun s i e v h => read_ignores_override s e v h, fun i s t => exec_keeps_vectors,
    fun i s t j => exec_keeps_override, fun s p => release_ends_override, fun s => ⟨_, rfl, rfl, rfl⟩⟩
  have hline : linePin i = some p := (linePin_eq_some i p).2 (by simpa using hi)
  exact line_event_reaches_only_override hline h

end Sys2Proof.Proofs
end

section
/-! PROOF. Reset and the conflict that repeats (spec 70_reset_and_hazards.md): the statements of R180 and R196. -/

namespace Sys2Proof.Proofs

open Sys2Proof.Machine Sys2Proof.Laws Sys2Proof.Safety

theorem exec_reset (s : State) : exec .reset s = .next { s with port := Port.zero, events := [], result := .noValue } := rfl

/-- Every word of the register window of a port that was reset is zero (R180). -/
theorem readWord_zero (off : Offset) : readWord Port.zero off = 0x00000000#32 := by
  unfold readWord
  cases registerAt off with
  | none => rfl
  | some r => cases r <;> rfl

/-- Settles O30: what a reset leaves depends on the parameters and the pending operations alone, and it keeps both; the reads are
the window's read of the zero port. -/
theorem resetZeroesEverything : Obligations.ResetZeroesEverything := by
  refine ⟨rfl, fun s => ⟨_, exec_reset s, rfl, rfl, rfl, rfl, rfl, rfl, rfl, rfl, rfl, rfl, rfl, rfl, rfl, ⟨rfl, rfl, rfl⟩,
    exec_reset _, fun off hoff => ?_⟩⟩
  exact ⟨readAt off, _, decode_readWord off, exec_readAt off _, congrArg Result.value (readWord_zero off),
    readReport_of_defined hoff⟩

/-- Settles O45: a trigger is one pass, the pass keeps the mode and the override its condition reads, and it reports the conflict
of every pin below N that meets the condition. -/
theorem conflictRepeatsOnEveryTrigger : Obligations.ConflictRepeatsOnEveryTrigger := by
  intro w s i htrigger hcontract hi
  refine ⟨_, exec_trigger htrigger hcontract, fun hout hover => ?_⟩
  rw [passed_isOutput] at hout
  rw [passed_ovrEn] at hover
  exact (conflict_mem_passed s _ i).2 ⟨hi, hout, hover⟩

end Sys2Proof.Proofs
end

section
/-! PROOF. The lock register and the electrical registers (spec 70_reset_and_hazards.md, R200): an operation runs alike whatever
word one of them holds, but for its own read and the snapshot; and a write to LCKR stops no later write. -/

namespace Sys2Proof.Proofs

open Sys2Proof.Machine Sys2Proof.Laws Sys2Proof.Safety

/-- `s` with another word in one of the five registers. -/
def putIn (r : StoredOnly) (v : Word) (s : State) : State := { s with port := r.put v s.port }

/-- What R200 allows two runs of `i` to differ in, where `t` is left from some state and `u` from that state with `v` in `r`: the
register itself, its own read, and its field of a snapshot. -/
def DiffersOnlyIn (r : StoredOnly) (v : Word) (i : Instr) (t u : State) : Prop :=
  u = { t with port := u.port, result := u.result } ∧ (u.port = t.port ∨ u.port = r.put v t.port) ∧
  (i ≠ r.read → i ≠ .save → u.result = t.result) ∧
  (i = r.read → u.result = .value v) ∧
  (i = .save → ∃ f, t.result = .snapshot f ∧ u.result = .snapshot (r.putField v f))

theorem read_ne_save (r : StoredOnly) : r.read ≠ .save := by cases r <;> nofun

/-- The register's word stands at its own offset and at no other. -/
theorem readWord_put_offsetOf (r : StoredOnly) (v : Word) (p : Port) (name : RegName) :
    readWord (r.put v p) (offsetOf name) = if offsetOf name = storedOffset r then v else readWord p (offsetOf name) := by
  cases r <;> cases name <;> rfl

/-- The snapshot holds the register in its own field (R145). -/
theorem snapshotOf_put (r : StoredOnly) (v : Word) (p : Port) : snapshotOf (r.put v p) = r.putField v (snapshotOf p) := by
  cases r <;> rfl

/-- A pass carries the register's word along (R111, R116). -/
theorem passed_put (r : StoredOnly) (v : Word) (s : State) (p : Port) :
    passed s (r.put v p) = { passed s p with port := r.put v (passed s p).port } := by
  simp only [passed, resolvePass_put]

/-- A trigger is a pass from its updated port, whatever port stood there before. -/
theorem exec_trigger_putIn {i : Instr} {s : State} (r : StoredOnly) (v : Word) (htrigger : isTrigger i = true)
    (hcontract : withinContract s.pinCount i = true) :
    exec i (putIn r v s) = .next (passed s (updatedPort i (r.put v s.port))) :=
  exec_trigger htrigger hcontract

/-- An operation that is no trigger is a read, SAVE, RESET, RESTORE, or a write that stores nothing (R119). -/
theorem nontrigger_cases {i : Instr} (h : isTrigger i = false) :
    isRead i = true ∨ i = .save ∨ i = .reset ∨ (∃ f, i = .restore f) ∨ (∃ v, i = .wrIdr v) ∨
      ∃ off v, i = .wrUnknown off v := by
  cases i
  case save => exact .inr (.inl rfl)
  case reset => exact .inr (.inr (.inl rfl))
  case restore f => exact .inr (.inr (.inr (.inl ⟨f, rfl⟩)))
  case wrIdr v => exact .inr (.inr (.inr (.inr (.inl ⟨v, rfl⟩))))
  case wrUnknown off v => exact .inr (.inr (.inr (.inr (.inr ⟨off, v, rfl⟩))))
  case rdModer | rdOtyper | rdOspeedr | rdPupdr | rdIdr | rdOdr | rdBsrr | rdLckr | rdAfrl | rdAfrh | rdUnknown =>
    exact .inl rfl
  all_goals cases h

/-- A run that differs in the port alone, by at most the register, differs as R200 allows. -/
theorem DiffersOnlyIn.of_port {r : StoredOnly} {v : Word} {i : Instr} {t : State} {p : Port} (hread : i ≠ r.read)
    (hsave : i ≠ .save) (hp : p = t.port ∨ p = r.put v t.port) : DiffersOnlyIn r v i t { t with port := p } :=
  ⟨rfl, hp, fun _ _ => rfl, fun h => absurd h hread, fun h => absurd h hsave⟩

/-- The register's own read returns the word. -/
theorem exec_own_read_putIn (r : StoredOnly) (v : Word) (s : State) :
    ∃ t u, exec r.read s = .next t ∧ exec r.read (putIn r v s) = .next u ∧ DiffersOnlyIn r v r.read t u := by
  rw [← readAt_storedOffset]
  refine ⟨_, _, exec_readAt _ _, exec_readAt _ _, ?_⟩
  rw [readAt_storedOffset]
  exact ⟨rfl, .inr rfl, fun h => absurd rfl h, fun _ => congrArg Result.value (readWord_put r v s.port),
    fun h => absurd h (read_ne_save r)⟩

/-- SAVE returns the word in the register's field. -/
theorem exec_save_putIn (r : StoredOnly) (v : Word) (s : State) :
    ∃ t u, exec .save s = .next t ∧ exec .save (putIn r v s) = .next u ∧ DiffersOnlyIn r v .save t u :=
  ⟨_, _, rfl, rfl, rfl, .inr rfl, fun _ h => absurd rfl h, fun h => absurd h.symm (read_ne_save r),
    fun _ => ⟨_, rfl, congrArg Result.snapshot (snapshotOf_put r v s.port)⟩⟩

/-- Any other operation that completes returns the same, and keeps the register's word or overwrites it. -/
theorem exec_putIn_same_result {i : Instr} {s : State} (r : StoredOnly) (v : Word) (hread : i ≠ r.read) (hsave : i ≠ .save)
    (hcontract : withinContract s.pinCount i = true) :
    ∃ t p, exec i s = .next t ∧ exec i (putIn r v s) = .next { t with port := p } ∧ (p = t.port ∨ p = r.put v t.port) := by
  by_cases htrigger : isTrigger i = true
  · refine ⟨_, (passed s (updatedPort i (r.put v s.port))).port, exec_trigger htrigger hcontract, ?_⟩
    rw [exec_trigger_putIn r v htrigger hcontract]
    obtain hover | hkeep := updatedPort_put r v i s.port
    · rw [hover]; exact ⟨rfl, .inl rfl⟩
    · rw [hkeep, passed_put]; exact ⟨rfl, .inr rfl⟩
  obtain hr | rfl | rfl | ⟨f, rfl⟩ | ⟨w, rfl⟩ | ⟨off, w, rfl⟩ := nontrigger_cases (Bool.eq_false_iff.2 htrigger)
  · obtain ⟨name, rfl⟩ | ⟨off, rfl⟩ := isRead_cases hr
    · have hother : offsetOf name ≠ storedOffset r := fun h => hread (h ▸ readAt_storedOffset r)
      refine ⟨_, r.put v s.port, exec_readAt _ _, ?_, .inr rfl⟩
      rw [exec_readAt, putIn, readWord_put_offsetOf, if_neg hother]
    · exact ⟨_, _, rfl, rfl, .inr rfl⟩
  · exact absurd rfl hsave
  · exact ⟨_, _, rfl, rfl, .inl rfl⟩
  · exact ⟨_, _, rfl, rfl, .inl rfl⟩
  · exact ⟨_, _, rfl, rfl, .inr rfl⟩
  · exact ⟨_, _, rfl, rfl, .inr rfl⟩

/-- What R200 says of one register and one operation inside the contract. -/
theorem exec_putIn_differsOnlyIn {i : Instr} {s : State} (r : StoredOnly) (v : Word)
    (hcontract : withinContract s.pinCount i = true) :
    ∃ t u, exec i s = .next t ∧ exec i (putIn r v s) = .next u ∧ DiffersOnlyIn r v i t u := by
  by_cases hread : i = r.read
  · exact hread ▸ exec_own_read_putIn r v s
  by_cases hsave : i = .save
  · exact hsave ▸ exec_save_putIn r v s
  obtain ⟨t, p, hs, hput, hp⟩ := exec_putIn_same_result r v hread hsave hcontract
  exact ⟨t, _, hs, hput, .of_port hread hsave hp⟩

/-- Whether an operation is refused depends on N and its operand alone (R139). -/
theorem refused_alike {i : Instr} {s : State} (q : Port) (hcontract : withinContract s.pinCount i = false) :
    ∃ e, exec i s = .refused e ∧ exec i { s with port := q } = .refused e := by
  obtain ⟨p, hline, hs⟩ := exec_outside hcontract
  obtain ⟨p', hline', hq⟩ := exec_outside (s := { s with port := q }) hcontract
  obtain rfl : p = p' := Option.some.inj (hline.symm.trans hline')
  exact ⟨_, hs, hq⟩

/-- A bus write to a register takes effect after any write to LCKR: `register` reads what `w` stores in every port, and no pass
writes it. -/
theorem write_takes_effect_after_wrLckr {w : Instr} {register : Port → Word} {x : Word} (htrigger : isTrigger w = true)
    (hcontract : ∀ n, withinContract n w = true) (hstores : ∀ p, register (updatedPort w p) = x)
    (hidr : ∀ p word, register { p with idr := word } = register p) (s : State) (v : Word) :
    ∃ t u, exec (.wrLckr v) s = .next t ∧ exec w t = .next u ∧ register u.port = x := by
  refine ⟨_, _, exec_trigger rfl rfl, exec_trigger htrigger (hcontract _), ?_⟩
  rw [passed_others, hidr, hstores]

/-- Settles O58: an operation outside the contract is refused whatever the registers hold, and inside it the two runs differ as
R200 allows; each of the eight writes stores its word after a write to LCKR. -/
theorem lockAndElectricalRegistersChangeOnlyTheirReadBack :
    Obligations.LockAndElectricalRegistersChangeOnlyTheirReadBack := by
  constructor
  · intro r v i s
    cases hcontract : withinContract s.pinCount i with
    | false => exact .inl (refused_alike _ hcontract)
    | true => exact .inr (exec_putIn_differsOnlyIn r v hcontract)
  · intro s v x w register hrow
    simp only [List.mem_cons, List.not_mem_nil, or_false, Prod.mk.injEq] at hrow
    obtain ⟨rfl, rfl⟩ | ⟨rfl, rfl⟩ | ⟨rfl, rfl⟩ | ⟨rfl, rfl⟩ | ⟨rfl, rfl⟩ | ⟨rfl, rfl⟩ | ⟨rfl, rfl⟩ | ⟨rfl, rfl⟩ := hrow
    all_goals exact write_takes_effect_after_wrLckr rfl (fun _ => rfl) (fun _ => rfl) (fun _ _ => rfl) s v

end Sys2Proof.Proofs
end

section
/-! PROOF. The encoding (spec 30_encoding.md): decoding a packet and encoding what it decodes to undo each other, the exact match
of a bus access's offset, and the reserved selectors. -/

namespace Sys2Proof.Proofs

open Sys2Proof.Laws

/-- The line event of a value on a pin (R62, R67 (3)). -/
def lineInstr : LineValue → PinOperand → Instr
  | .driveLow, p => .lineLow p
  | .driveHigh, p => .lineHigh p
  | .release, p => .lineRelease p

theorem encode_lineInstr (v : LineValue) (p : PinOperand) : encode (lineInstr v p) = packet (lineSel v p) [] := by
  cases v <;> rfl

theorem wellFormed_lineInstr (v : LineValue) (p : PinOperand) : WellFormed (lineInstr v p) := by
  cases v <;> rfl

theorem decode_encode_lineInstr (v : LineValue) (p : PinOperand) : decode (encode (lineInstr v p)) = .ok (lineInstr v p) := by
  rw [encode_lineInstr, decode_lineSel]
  cases v <;> rfl

/-- An operation with a bus read's packet is what that packet decodes to, once it is the row its offset chooses. -/
theorem decode_encode_of_readAt {i : Instr} {off : Offset} (hencode : encode i = packet (readSel off) [])
    (hrow : readAt off = i) : decode (encode i) = .ok i := by
  rw [hencode, decode_readSel, hrow]

theorem decode_encode_of_writeAt {i : Instr} {off : Offset} {v : Word} (hencode : encode i = packet (writeSel off) [v])
    (hrow : writeAt off v = i) : decode (encode i) = .ok i := by
  rw [hencode, decode_writeSel, hrow]

/-- An unknown-offset operation of the table names none of the ten offsets (R91, R103). -/
theorem not_mem_definedOffsets_of_wellFormed {off : Offset} (h : (!definedOffsets.contains off) = true) :
    off ∉ definedOffsets := by
  simpa using h

theorem decode_encode {i : Instr} (h : WellFormed i) : decode (encode i) = .ok i := by
  cases i with
  | rdModer | rdOtyper | rdOspeedr | rdPupdr | rdIdr | rdOdr | rdBsrr | rdLckr | rdAfrl | rdAfrh =>
    exact decode_encode_of_readAt rfl rfl
  | rdUnknown off => exact decode_encode_of_readAt rfl (readAt_unknown (not_mem_definedOffsets_of_wellFormed h))
  | wrModer | wrOtyper | wrOspeedr | wrPupdr | wrIdr | wrOdr | wrBsrr | wrLckr | wrAfrl | wrAfrh =>
    exact decode_encode_of_writeAt rfl rfl
  | wrUnknown off v => exact decode_encode_of_writeAt rfl (writeAt_unknown (not_mem_definedOffsets_of_wellFormed h) v)
  | lineLow p => exact decode_encode_lineInstr .driveLow p
  | lineHigh p => exact decode_encode_lineInstr .driveHigh p
  | lineRelease p => exact decode_encode_lineInstr .release p
  | reset | save | restore => rfl

/-- The four values of a two-bit field of a selector (R61). -/
theorem twoBits_cases (c : BitVec 2) : c = 0#2 ∨ c = 1#2 ∨ c = 2#2 ∨ c = 3#2 := by
  revert c; decide

/-- A two-bit code names a line value or is the one R68 reserves (R62). -/
theorem lineCode_cases (l : BitVec 2) : (∃ v, l = lineCode v) ∨ l = 3#2 := by
  obtain h | h | h | h := twoBits_cases l
  · exact .inl ⟨.driveLow, h⟩
  · exact .inl ⟨.driveHigh, h⟩
  · exact .inl ⟨.release, h⟩
  · exact .inr h

theorem lineCode_ne_reserved (v : LineValue) : lineCode v ≠ 3#2 := by cases v <;> decide

/-- A class 2 selector with a named level is that level's line event (R67 (3)). -/
theorem decodeLine_named {sel : BitVec 12} {v : LineValue} (hzero : sel.extractLsb' 6 4 = 0#4)
    (hlevel : sel.extractLsb' 4 2 = lineCode v) (data : List Word) :
    decodeLine sel data = withoutData sel (lineInstr v (selPin sel)) data := by
  rw [decodeLine, if_neg (not_not_intro hzero), hlevel]
  cases v <;> rfl

/-- A class 2 selector of a reserved pattern is refused whatever stands beside it (R68). -/
theorem decodeLine_reserved {sel : BitVec 12} (h : sel.extractLsb' 6 4 ≠ 0#4 ∨ sel.extractLsb' 4 2 = 3#2)
    (data : List Word) : decodeLine sel data = .error (.reservedLine sel) := by
  unfold decodeLine
  split
  · rfl
  · next hzero =>
    rw [h.resolve_left hzero]
    rfl

/-- A class 2 selector stands for an operation exactly when its reserved bits are zero and its level is named (R68). -/
theorem decodeLine_accepts (sel : BitVec 12) : (∃ data i, decodeLine sel data = .ok i) ↔
    sel.extractLsb' 6 4 = 0#4 ∧ ∃ v, sel.extractLsb' 4 2 = lineCode v := by
  constructor
  · rintro ⟨data, i, h⟩
    have haccepted : ¬(sel.extractLsb' 6 4 ≠ 0#4 ∨ sel.extractLsb' 4 2 = 3#2) := by
      intro hreserved
      rw [decodeLine_reserved hreserved] at h
      cases h
    obtain ⟨hzero, hlevel⟩ := not_or.1 haccepted
    exact ⟨not_not.1 hzero, (lineCode_cases _).resolve_right hlevel⟩
  · rintro ⟨hzero, v, hlevel⟩
    exact ⟨[], _, decodeLine_named hzero hlevel []⟩

/-- A class 2 selector that decodes is the selector of its line event, with no data beside it. -/
theorem decodeLine_ok {sel : BitVec 12} {data : List Word} {i : Instr} (hclass : selClass sel = 2#2)
    (h : decodeLine sel data = .ok i) : ∃ v p, sel = lineSel v p ∧ data = [] ∧ i = lineInstr v p := by
  obtain ⟨hzero, v, hlevel⟩ := (decodeLine_accepts sel).1 ⟨data, i, h⟩
  rw [decodeLine_named hzero hlevel] at h
  obtain ⟨rfl, rfl⟩ := withoutData_ok h
  have hsel := selector_eq_line sel hclass hzero
  rw [hlevel] at hsel
  exact ⟨v, selPin sel, hsel.symm, rfl, rfl⟩

/-- A class 3 selector that decodes is the selector of RESET, SAVE or RESTORE, with that operation's data beside it. -/
theorem decodeSystem_ok {sel : BitVec 12} {data : List Word} {i : Instr} (hclass : selClass sel = 3#2)
    (h : decodeSystem sel data = .ok i) : WellFormed i ∧ encode i = packet sel data := by
  unfold decodeSystem at h
  split at h
  · cases h
  · next hzero =>
    have hsel := selector_eq_system sel hclass (not_not.1 hzero)
    split at h
    · next hop =>
      obtain ⟨rfl, rfl⟩ := withoutData_ok h
      rw [hop] at hsel
      exact ⟨rfl, congrArg (packet · []) hsel⟩
    split at h
    · next hop =>
      obtain ⟨rfl, rfl⟩ := withoutData_ok h
      rw [hop] at hsel
      exact ⟨rfl, congrArg (packet · []) hsel⟩
    split at h
    · next hop =>
      obtain ⟨f, rfl, rfl⟩ := withSnapshot_ok h
      rw [hop] at hsel
      exact ⟨rfl, congrArg (packet · (snapshotWords f)) hsel⟩
    · cases h

theorem decodeSelector_read {sel : BitVec 12} (hclass : selClass sel = 0#2) (data : List Word) :
    decodeSelector sel data = withoutData sel (readAt (selOffset sel)) data := by
  rw [decodeSelector, if_pos hclass]

theorem decodeSelector_write {sel : BitVec 12} (hclass : selClass sel = 1#2) (data : List Word) :
    decodeSelector sel data = withWord sel (writeAt (selOffset sel)) data := by
  rw [decodeSelector, hclass, if_neg (by decide), if_pos rfl]

theorem decodeSelector_line {sel : BitVec 12} (hclass : selClass sel = 2#2) (data : List Word) :
    decodeSelector sel data = decodeLine sel data := by
  rw [decodeSelector, hclass, if_neg (by decide), if_neg (by decide), if_pos rfl]

theorem decodeSelector_system {sel : BitVec 12} (hclass : selClass sel = 3#2) (data : List Word) :
    decodeSelector sel data = decodeSystem sel data := by
  rw [decodeSelector, hclass, if_neg (by decide), if_neg (by decide), if_neg (by decide)]

theorem readSel_selOffset {sel : BitVec 12} (hclass : selClass sel = 0#2) : readSel (selOffset sel) = sel := by
  have hbus := selector_eq_bus sel
  rwa [hclass] at hbus

theorem writeSel_selOffset {sel : BitVec 12} (hclass : selClass sel = 1#2) : writeSel (selOffset sel) = sel := by
  have hbus := selector_eq_bus sel
  rwa [hclass] at hbus

/-- What a selector and its data decode to is an operation of the table, and its packet is these two. -/
theorem encode_of_decodeSelector {sel : BitVec 12} {data : List Word} {i : Instr} (h : decodeSelector sel data = .ok i) :
    WellFormed i ∧ encode i = packet sel data := by
  obtain hclass | hclass | hclass | hclass := twoBits_cases (selClass sel)
  · rw [decodeSelector_read hclass] at h
    obtain ⟨rfl, rfl⟩ := withoutData_ok h
    have hrow := encode_readAt (selOffset sel)
    rwa [readSel_selOffset hclass] at hrow
  · rw [decodeSelector_write hclass] at h
    obtain ⟨v, rfl, rfl⟩ := withWord_ok h
    have hrow := encode_writeAt (selOffset sel) v
    rwa [writeSel_selOffset hclass] at hrow
  · rw [decodeSelector_line hclass] at h
    obtain ⟨v, p, rfl, rfl, rfl⟩ := decodeLine_ok hclass h
    exact ⟨wellFormed_lineInstr v p, encode_lineInstr v p⟩
  · rw [decodeSelector_system hclass] at h
    exact decodeSystem_ok hclass h

theorem encode_of_decode {ws : List Word} {i : Instr} (h : decode ws = .ok i) : WellFormed i ∧ encode i = ws := by
  unfold decode at h
  split at h
  · cases h
  · next w data =>
    split at h
    · cases h
    · next hhigh =>
      have hpacket : packet (w.setWidth 12) data = w :: data := congrArg (· :: data) (packet_of_high (not_not.1 hhigh))
      exact hpacket ▸ encode_of_decodeSelector h

/-- A class 3 selector stands for an operation exactly when its reserved bits are zero and its number is named (R68). -/
theorem decodeSystem_accepts (sel : BitVec 12) : (∃ data i, decodeSystem sel data = .ok i) ↔
    sel.extractLsb' 2 8 = 0#8 ∧ sel.extractLsb' 0 2 ≠ 3#2 := by
  unfold decodeSystem
  constructor
  · rintro ⟨data, i, h⟩
    split at h
    · cases h
    · next hzero =>
      refine ⟨not_not.1 hzero, fun hop => ?_⟩
      rw [hop] at h
      cases h
  · rintro ⟨hzero, hop⟩
    obtain h | h | h | h := twoBits_cases (sel.extractLsb' 0 2)
    · rw [hzero, h]; exact ⟨[], _, rfl⟩
    · rw [hzero, h]; exact ⟨[], _, rfl⟩
    · rw [hzero, h]; exact ⟨snapshotWords (Machine.snapshotOf Machine.Port.zero), _, rfl⟩
    · exact absurd h hop

/-- Settles O1: each operation's packet is one of the layouts of R61, and the decoder reads each layout back. -/
theorem decodeInvertsEncode : Obligations.DecodeInvertsEncode := fun _ => decode_encode

/-- Settles O2: a first word with nothing above the selector is that selector's, and each class's fields rebuild it. -/
theorem encodeInvertsDecode : Obligations.EncodeInvertsDecode := fun _ _ => encode_of_decode

/-- Settles O3: an offset is a register's own, where the chain of exact matches stops at that register, or none of the ten. -/
theorem everyOffsetDecodesByExactMatch : Obligations.EveryOffsetDecodesByExactMatch := by
  intro off v
  rw [decode_readWord, decode_writeWord]
  cases hregister : registerAt off with
  | some r =>
    obtain rfl := offsetOf_of_registerAt hregister
    cases r <;> exact ⟨rfl, rfl⟩
  | none =>
    have hunknown := (registerAt_eq_none off).1 hregister
    rw [readAt_unknown hunknown, writeAt_unknown hunknown]
    simp only [definedOffsets, List.mem_cons, List.not_mem_nil, or_false, not_or] at hunknown
    simp only [hunknown, if_false, and_self]

/-- Settles O5: every class 0 and class 1 selector is a bus access, and the reserved patterns are those the other two classes do
not accept. -/
theorem onlyReservedSelectorsAreRefused : Obligations.OnlyReservedSelectorsAreRefused := by
  intro sel
  simp only [decode_packet]
  change _ ↔ ¬(selClass sel = 2#2 ∧ _ ∨ selClass sel = 3#2 ∧ _)
  obtain hclass | hclass | hclass | hclass := twoBits_cases (selClass sel)
  · simp only [decodeSelector_read hclass, hclass]
    exact iff_of_true ⟨[], _, rfl⟩ (by simp)
  · simp only [decodeSelector_write hclass, hclass]
    exact iff_of_true ⟨[0], _, rfl⟩ (by simp)
  · have hnamed : (∃ v, sel.extractLsb' 4 2 = lineCode v) ↔ sel.extractLsb' 4 2 ≠ 3#2 :=
      ⟨fun ⟨v, h⟩ => h ▸ lineCode_ne_reserved v, (lineCode_cases _).resolve_right⟩
    simp only [decodeSelector_line hclass, decodeLine_accepts, hnamed, hclass]
    simp
  · simp only [decodeSelector_system hclass, decodeSystem_accepts, hclass]
    simp

/-- Settles O4: the bus words are an offset with its direction, the line words a level's base with its pin. -/
theorem specWordsDecode : Obligations.SpecWordsDecode :=
  ⟨decode_readWord 0x010#10, decode_readWord 0x030#10, decode_writeWord 0x018#10 _, decode_writeWord 0x030#10 _,
    decode_encode_lineInstr .driveLow 1#4, decode_encode_lineInstr .driveHigh 3#4, decode_encode_lineInstr .release 0#4,
    decode_encode (i := .reset) rfl, decode_encode (i := .save) rfl,
    decode_encode (i := .restore ⟨1, 2, 3, 4, 5, 6, 7, 8, 9, 10, 11⟩) rfl⟩

end Sys2Proof.Proofs
end

section
/-! PROOF. The trace of an operation (spec 41_pin_resolver.md section 2, 42_edge_notifier.md, 60_exceptions.md): its order, where its
edges come from, and the report of a bad offset. Each statement is one of the pass's laws and the little any other operation emits. -/

namespace Sys2Proof.Proofs

open Sys2Proof.Machine Sys2Proof.Laws Sys2Proof.Safety

/-- R118 for every operation: a pass emits in pin order, and any other operation emits at most once. -/
theorem exec_inPinOrder {i : Instr} {s t : State} (h : exec i s = .next t) : InPinOrder t.events := by
  obtain ⟨-, -, rfl⟩ | ⟨-, -, -, hevents | ⟨d, hevents, -, -⟩⟩ := exec_cases h
  · exact resolvePass_inPinOrder _ _
  · rw [hevents]; exact List.Pairwise.nil
  · rw [hevents]; exact List.pairwise_singleton _ _

/-- R125 and R161: an edge is a trigger's, for an Output pin of the port whose IDR bit the trigger changed to the edge's level. -/
theorem exec_edge {i : Instr} {s t : State} {p : Nat} {b : Bool} (h : exec i s = .next t) (hedge : Event.edge p b ∈ t.events) :
    isTrigger i = true ∧ p < s.pinCount ∧ IsOutput t.port p ∧ t.port.idr.getLsbD p = b ∧ s.port.idr.getLsbD p = !b := by
  obtain ⟨htrigger, -, rfl⟩ | ⟨-, -, -, hevents | ⟨d, hevents, -, -⟩⟩ := exec_cases h
  · obtain ⟨hp, hout, rfl, hne⟩ := (edge_mem_passed _ _ _ _).1 hedge
    rw [updatedPort_idr] at hne
    exact ⟨htrigger, hp, (passed_isOutput _ _ _).2 hout, by rw [passed_idr, if_pos hp], Bool.eq_not.2 hne.symm⟩
  · simp [hevents] at hedge
  · simp [hevents] at hedge

/-- The only diagnostic of a pass is a conflict (R163). -/
theorem diag_mem_passed {s : State} {p : Port} {d : Diag} (h : Event.diag d ∈ (passed s p).events) :
    ∃ i, d = .driveConflict i := by
  obtain ⟨i, -, ⟨hd, -⟩ | ⟨hd, -⟩⟩ := (mem_resolvePass _ _ _).1 h
  · exact ⟨i, Event.diag.inj hd⟩
  · cases hd

theorem exec_badOffset_alone {i : Instr} {s t : State} {d : Diag} (h : exec i s = .next t) (hmem : Event.diag d ∈ t.events)
    (hd : ∀ p, d ≠ .driveConflict p) : t.events = [.diag d] ∧ t.port = s.port := by
  obtain ⟨-, -, rfl⟩ | ⟨-, -, -, hevents | ⟨d', hevents, hport, -⟩⟩ := exec_cases h
  · obtain ⟨p, hp⟩ := diag_mem_passed hmem
    exact absurd hp (hd p)
  · simp [hevents] at hmem
  · rw [hevents] at hmem
    obtain rfl : d = d' := Event.diag.inj (List.mem_singleton.1 hmem)
    exact ⟨hevents, hport⟩

theorem edgePin_eq_some {e : Event} {p : Nat} : edgePin e = some p ↔ ∃ b, e = .edge p b := by
  cases e <;> simp [edgePin]

/-- Two edges of one pin have one place in the order of R118, so a trace in that order holds at most one. -/
theorem nodup_edgePins_of_inPinOrder {es : List Event} (h : InPinOrder es) : (es.filterMap edgePin).Nodup := by
  refine List.pairwise_filterMap.2 (h.imp fun {e e'} hrank p hp q hq => ?_)
  obtain ⟨b, rfl⟩ := edgePin_eq_some.1 hp
  obtain ⟨c, rfl⟩ := edgePin_eq_some.1 hq
  rintro rfl
  exact Nat.lt_irrefl _ hrank

/-- The pins of an operation's edges are pins of the port whose IDR bit it changed (R127). -/
theorem exec_edgePin {i : Instr} {s t : State} {p : Nat} (h : exec i s = .next t) (hp : p ∈ t.events.filterMap edgePin) :
    p < s.pinCount ∧ t.port.idr.getLsbD p ≠ s.port.idr.getLsbD p := by
  obtain ⟨e, hmem, he⟩ := List.mem_filterMap.1 hp
  obtain ⟨b, rfl⟩ := edgePin_eq_some.1 he
  obtain ⟨-, hlt, -, hnew, hold⟩ := exec_edge h hmem
  exact ⟨hlt, by simp [hnew, hold]⟩

/-- Settles O43: every operation's trace is in the order of R118. -/
theorem tracesAreInPinOrder : Obligations.TracesAreInPinOrder := fun _ _ _ => exec_inPinOrder

/-- Settles O55: the edges of a pass are the only ones. -/
theorem edgesComeOnlyFromOutputPins : Obligations.EdgesComeOnlyFromOutputPins := fun _ _ _ _ _ => exec_edge

/-- Settles O56: a pass reports conflicts alone, and any other operation emits at most one event and then keeps the port. -/
theorem badOffsetComesAlone : Obligations.BadOffsetComesAlone := fun _ _ _ _ => exec_badOffset_alone

/-- Settles O44: the pins of the edges are distinct and all below N, so there are at most N. -/
theorem atMostOneEdgePerPin : Obligations.AtMostOneEdgePerPin := by
  intro i s t h
  have hnodup := nodup_edgePins_of_inPinOrder (exec_inPinOrder h)
  have hrange : t.events.filterMap edgePin ⊆ List.range s.pinCount := fun p hp => List.mem_range.2 (exec_edgePin h hp).1
  have hlength := (List.subperm_of_subset hnodup hrange).length_le
  rw [List.length_range] at hlength
  exact ⟨hnodup, hlength, fun p => exec_edgePin h⟩

end Sys2Proof.Proofs
end

section
/-! PROOF. The pass again (spec 41_pin_resolver.md section 2): the statements of R118 and R120, and what R29 tells of an override. -/

namespace Sys2Proof.Proofs

open Sys2Proof.Machine Sys2Proof.Laws Sys2Proof.Safety

/-- After a pass every pin's IDR bit is its resolved level. -/
theorem resolvePass_idr_eq_level {n i : Nat} (p : Port) (h : i < n) :
    (resolvePass n p).1.idr.getLsbD i = resolvedLevel (resolvePass n p).1 i := by
  rw [resolvePass_idr_of_lt h, resolvedLevel_resolvePass]

/-- The port a list of turns leaves depends on which pins had one, not on their order. -/
theorem resolvePins_port_of_perm {is js : List Nat} (h : is.Perm js) (p : Port) :
    (resolvePins is p).1 = (resolvePins js p).1 := by
  have hidr : (resolvePins is p).1.idr = (resolvePins js p).1.idr :=
    BitVec.eq_of_getLsbD_eq fun j _ => by simp only [resolvePins_idr, h.mem_iff]
  rw [resolvePins_others is, resolvePins_others js, hidr]

/-- Each pin's events come from the port before the pass, so another order permutes them. -/
theorem resolvePins_events_of_perm {is js : List Nat} (h : is.Perm js) (hnodup : js.Nodup) (p : Port) :
    (resolvePins is p).2.Perm (resolvePins js p).2 := by
  rw [resolvePins_events _ _ (h.nodup_iff.2 hnodup), resolvePins_events _ _ hnodup]
  exact h.flatMap_right _

/-- On a consistent port, a pin whose IDR bit is not what its registers give is overridden, to that bit (R29). -/
theorem override_of_visible {s : State} {i : Nat} (hc : Consistent s) (hi : i < s.pinCount)
    (hvisible : s.port.ovrEn.getLsbD i = false → s.port.idr.getLsbD i ≠ resolvedLevel s.port i) :
    s.port.ovrEn.getLsbD i = true ∧ s.port.ovrVal.getLsbD i = s.port.idr.getLsbD i := by
  have hlevel := hc i hi
  cases hover : s.port.ovrEn.getLsbD i with
  | false => exact absurd hlevel (hvisible hover)
  | true => exact ⟨rfl, (hlevel.trans (resolvedLevel_of_overridden hover)).symm⟩

/-- A trigger that completes leaves a consistent port (R22, R119). -/
theorem exec_trigger_consistent {i : Instr} {s t : State} (htrigger : isTrigger i = true) (h : exec i s = .next t) :
    Consistent t := by
  obtain ⟨-, -, rfl⟩ | ⟨hnot, -⟩ := exec_cases h
  · exact passed_consistent _ _
  · rw [htrigger] at hnot
    cases hnot

/-- Settles O41: the second pass starts from a consistent port. -/
theorem passIsIdempotent : Obligations.PassIsIdempotent := by
  intro n p
  obtain ⟨hport, hedges⟩ := resolvePass_consistent fun i hi => resolvePass_idr_eq_level (n := n) p hi
  exact ⟨hport, hedges, conflict_mem_second_pass n p⟩

/-- Settles O42: no pin's turn reads what another pin's turn writes. -/
theorem passOrderIsImmaterial : Obligations.PassOrderIsImmaterial := by
  intro n p pins hperm
  exact ⟨resolvePins_port_of_perm hperm p, resolvePins_events_of_perm hperm List.nodup_range p⟩

/-- Settles O46: without an override an Output pin's level is its ODR bit and any other pin's its pull-up. -/
theorem indirectlyVisibleOverride : Obligations.IndirectlyVisibleOverride := by
  intro w s t i htrigger h hi
  have hc := exec_trigger_consistent htrigger h
  rw [← (exec_sides h).pinCount] at hi
  refine ⟨fun hout hne => override_of_visible hc hi fun hover => ?_, fun hout hne => override_of_visible hc hi fun hover => ?_⟩
  · rwa [resolvedLevel_of_output hover hout]
  · rwa [resolvedLevel_of_not_output hover hout]

end Sys2Proof.Proofs
end

section
/-! PROOF. What every operation keeps (spec 10_state.md): the invariant, the consistency of IDR, and the writers of each state item. -/

namespace Sys2Proof.Proofs

open Sys2Proof.Machine Sys2Proof.Laws Sys2Proof.Safety

/-- RESET and RESTORE are the operations that overwrite every item (R147, R180). -/
theorem overwritesAll_cases {i : Instr} (h : overwritesAll i = true) : i = .reset ∨ ∃ f, i = .restore f := by
  cases i
  case reset => exact .inl rfl
  case restore f => exact .inr ⟨f, rfl⟩
  all_goals cases h

theorem exec_restore (f : Snapshot) (s : State) : exec (.restore f) s =
    .next { s with port := portOf s.pinCount f, events := [], result := .noValue } := rfl

/-- An override vector has no bit at or above `n` (R21, log 3). -/
def BitsBelow (n : Nat) (v : BitVec 16) : Prop := ∀ i, i < 16 → n ≤ i → v.getLsbD i = false

theorem vectorsInRange_iff (s : State) :
    VectorsInRange s ↔ BitsBelow s.pinCount s.port.ovrEn ∧ BitsBelow s.pinCount s.port.ovrVal :=
  ⟨fun h => ⟨fun i hi hn => (h i hi hn).1, fun i hi hn => (h i hi hn).2⟩, fun h i hi hn => ⟨h.1 i hi hn, h.2 i hi hn⟩⟩

theorem bitsBelow_lowBits (n : Nat) (f : Word) : BitsBelow n (lowBits n f) := by
  intro i _ hn
  rw [lowBits_getLsbD, decide_eq_false (Nat.not_lt.2 hn), Bool.and_false, Bool.false_and]

/-- A line event below N writes a bit below N. -/
theorem updatedPort_bitsBelow {i : Instr} {n : Nat} {p : Port} (hcontract : withinContract n i = true)
    (hen : BitsBelow n p.ovrEn) (hval : BitsBelow n p.ovrVal) :
    BitsBelow n (updatedPort i p).ovrEn ∧ BitsBelow n (updatedPort i p).ovrVal := by
  cases hline : linePin i with
  | none =>
    obtain ⟨hen', hval'⟩ := updatedPort_vectors hline p
    rw [hen', hval']
    exact ⟨hen, hval⟩
  | some q =>
    rw [withinContract, hline] at hcontract
    have hq : q.toNat < n := of_decide_eq_true hcontract
    obtain rfl | rfl | rfl := (linePin_eq_some i q).1 hline
    · exact ⟨setBit_inRange hq hen, setBit_inRange hq hval⟩
    · exact ⟨setBit_inRange hq hen, setBit_inRange hq hval⟩
    · exact ⟨setBit_inRange hq hen, hval⟩

theorem exec_vectorsInRange {i : Instr} {s t : State} (h : exec i s = .next t) (hs : VectorsInRange s) : VectorsInRange t := by
  have hn := (exec_sides h).pinCount
  rw [vectorsInRange_iff] at hs ⊢
  obtain ⟨hen, hval⟩ := hs
  obtain ⟨-, hcontract, rfl⟩ | ⟨-, -, hport, -⟩ := exec_cases h
  · rw [passed_ovrEn, passed_ovrVal]
    exact updatedPort_bitsBelow hcontract hen hval
  · cases hover : overwritesAll i with
    | false => rw [hn, hport hover]; exact ⟨hen, hval⟩
    | true =>
      obtain rfl | ⟨f, rfl⟩ := overwritesAll_cases hover
      · rw [exec_reset] at h
        cases h
        exact ⟨fun _ _ _ => BitVec.getLsbD_zero, fun _ _ _ => BitVec.getLsbD_zero⟩
      · rw [exec_restore] at h
        cases h
        exact ⟨bitsBelow_lowBits _ _, bitsBelow_lowBits _ _⟩

/-- A trace names pins of the port alone (R125, R157). -/
theorem exec_namesPinBelow {i : Instr} {s t : State} (h : exec i s = .next t) :
    t.events.all (namesPinBelow s.pinCount) = true := by
  rw [List.all_eq_true]
  intro e he
  obtain ⟨-, -, rfl⟩ | ⟨-, -, -, hevents | ⟨d, hevents, -, hd⟩⟩ := exec_cases h
  · obtain ⟨p, hp, ⟨rfl, -⟩ | ⟨rfl, -⟩⟩ := (mem_resolvePass _ _ _).1 he
    · exact decide_eq_true hp
    · exact decide_eq_true hp
  · simp [hevents] at he
  · rw [hevents, List.mem_singleton] at he
    subst he
    cases d with
    | badOffsetRead off => rfl
    | badOffsetWrite off v => rfl
    | driveConflict q => exact absurd rfl (hd q)

theorem exec_keeps_inv {i : Instr} {s t : State} (h : exec i s = .next t) (hpins : 1 ≤ s.pinCount ∧ s.pinCount ≤ 16)
    (hvectors : VectorsInRange s) : Inv t := by
  have hn := (exec_sides h).pinCount
  exact ⟨hn ▸ hpins, exec_vectorsInRange h hvectors, hn ▸ exec_namesPinBelow h, exec_inPinOrder h⟩

/-- Where nothing is overridden, requested or pulled up, every pin is low, whatever its mode. -/
theorem resolvedLevel_undriven {p : Port} (hen : p.ovrEn = 0#16) (hodr : p.odr = 0#32) (hpupdr : p.pupdr = 0#32) (i : Nat) :
    resolvedLevel p i = false := by
  have hover : p.ovrEn.getLsbD i = false := by rw [hen, BitVec.getLsbD_zero]
  by_cases hout : IsOutput p i
  · rw [resolvedLevel_of_output hover hout, hodr, BitVec.getLsbD_zero]
  · have hpull : (0#32).extractLsb' (2 * i) 2 ≠ 1#2 := by simp
    rw [resolvedLevel_of_not_output hover hout, hpupdr, decide_eq_false hpull]

/-- The port after reset is consistent (R22, R184). -/
theorem consistent_of_zero {s : State} (h : s.port = Port.zero) : Consistent s := by
  intro i _
  rw [h, resolvedLevel_undriven rfl rfl rfl]
  exact BitVec.getLsbD_zero

theorem constructed_inv (id : Identity) {n : Nat} (h1 : 1 ≤ n) (h16 : n ≤ 16) : Inv (State.constructed id n) :=
  ⟨⟨h1, h16⟩, fun _ _ _ => ⟨BitVec.getLsbD_zero, BitVec.getLsbD_zero⟩, rfl, List.Pairwise.nil⟩

theorem construct_inRange (id : Identity) {n : Nat} (h1 : 1 ≤ n) (h16 : n ≤ 16) :
    construct id n = .next (State.constructed id n) := if_pos ⟨h1, h16⟩

theorem construct_outOfRange (id : Identity) {n : Nat} (h : n = 0 ∨ 16 < n) : construct id n = .refused (.pinCount n) := by
  refine if_neg ?_
  rintro ⟨h1, h16⟩
  rw [Config.maxPins] at h16
  omega

/-- R22 with C4: what keeps a consistent port consistent, and what makes it so. -/
theorem exec_consistent {i : Instr} {s t : State} (h : exec i s = .next t) (hrestore : ∀ f, i ≠ .restore f)
    (hs : Consistent s ∨ isTrigger i = true ∨ i = .reset) : Consistent t := by
  obtain ⟨htrigger, -⟩ | ⟨htrigger, hsides, hport, -⟩ := exec_cases h
  · exact exec_trigger_consistent htrigger h
  · cases hover : overwritesAll i with
    | true =>
      obtain rfl | ⟨f, rfl⟩ := overwritesAll_cases hover
      · rw [exec_reset] at h
        cases h
        exact consistent_of_zero rfl
      · exact absurd rfl (hrestore f)
    | false =>
      obtain hs | hyes | rfl := hs
      · rw [Consistent, hsides.pinCount, hport hover]
        exact hs
      · simp [htrigger] at hyes
      · cases hover

/-- What R10's "Written by" column allows `i` to change between the ports `p` and `q`. -/
def WrittenByOwner (i : Instr) (p q : Port) : Prop :=
  (q.moder ≠ p.moder → i = .wrModer q.moder) ∧
  (q.otyper ≠ p.otyper → i = .wrOtyper q.otyper) ∧
  (q.ospeedr ≠ p.ospeedr → i = .wrOspeedr q.ospeedr) ∧
  (q.pupdr ≠ p.pupdr → i = .wrPupdr q.pupdr) ∧
  (q.idr ≠ p.idr → isTrigger i = true) ∧
  (q.odr ≠ p.odr → i = .wrOdr q.odr ∨ ∃ v, i = .wrBsrr v) ∧
  (q.lckr ≠ p.lckr → i = .wrLckr q.lckr) ∧
  (q.afrl ≠ p.afrl → i = .wrAfrl q.afrl) ∧
  (q.afrh ≠ p.afrh → i = .wrAfrh q.afrh) ∧
  (q.ovrEn ≠ p.ovrEn → ∃ r, linePin i = some r) ∧
  (q.ovrVal ≠ p.ovrVal → ∃ r, i = .lineLow r ∨ i = .lineHigh r)

theorem writtenByOwner_self (i : Instr) (p : Port) : WrittenByOwner i p p := by
  simp [WrittenByOwner]

/-- A trigger's update writes its own item, and IDR is free to change in its pass. -/
theorem writtenByOwner_trigger {i : Instr} (h : isTrigger i = true) (p : Port) (word : Word) :
    WrittenByOwner i p { updatedPort i p with idr := word } := by
  cases i <;> simp [WrittenByOwner, updatedPort, linePin, isTrigger] at h ⊢

theorem exec_writtenByOwner {i : Instr} {s t : State} (h : exec i s = .next t) (hover : overwritesAll i = false) :
    WrittenByOwner i s.port t.port := by
  obtain ⟨htrigger, -, rfl⟩ | ⟨-, -, hport, -⟩ := exec_cases h
  · rw [passed_others]
    exact writtenByOwner_trigger htrigger _ _
  · rw [hport hover]
    exact writtenByOwner_self i _

/-- A pass writes IDR's bits of pins, and no other operation but RESET and RESTORE writes IDR (R15, D26). -/
theorem exec_idr_of_ge {i : Instr} {s t : State} {j : Nat} (h : exec i s = .next t) (hover : overwritesAll i = false)
    (hj : s.pinCount ≤ j) : t.port.idr.getLsbD j = s.port.idr.getLsbD j := by
  obtain ⟨-, -, rfl⟩ | ⟨-, -, hport, -⟩ := exec_cases h
  · rw [passed_idr, if_neg (Nat.not_lt.2 hj), updatedPort_idr]
  · rw [hport hover]

/-- Settles O48: a step is one operation, and every operation keeps N and the vectors' range and emits a trace of the port. -/
theorem stepKeepsTheInvariant : Obligations.StepKeepsTheInvariant := by
  intro s t ⟨hpins, hvectors, _, _⟩ h
  obtain ⟨r, rest, i, -, -, hexec⟩ := step_cases h
  exact exec_keeps_inv hexec hpins hvectors

/-- Settles O50: a pass establishes consistency, RESET's zero port has it, and the rest but RESTORE keep the port. -/
theorem consistencyIsLostOnlyByRestore : Obligations.ConsistencyIsLostOnlyByRestore := fun _ _ _ => exec_consistent

/-- Settles O49: the reset state is construction with the default pin count. -/
theorem resetMeetsTheInvariant : Obligations.ResetMeetsTheInvariant :=
  ⟨constructed_inv .a (by decide) (by decide), consistent_of_zero rfl⟩

/-- Settles O31: construction gives the zero port of N pins, which RESET writes again. -/
theorem constructionLeavesTheResetState : Obligations.ConstructionLeavesTheResetState := by
  refine ⟨construct_inRange .a (by decide) (by decide), fun id n => ⟨fun h1 h16 => ?_, construct_outOfRange id⟩⟩
  exact ⟨_, construct_inRange id h1 h16, rfl, rfl, exec_reset _, constructed_inv id h1 h16, consistent_of_zero rfl, rfl⟩

/-- Settles O53: a trigger's update and its pass write the items its row names, and the rest but RESET and RESTORE write none. -/
theorem onlyItsOwnWritesChangeARegister : Obligations.OnlyItsOwnWritesChangeARegister := fun _ _ _ => exec_writtenByOwner

/-- Settles O54: the bits of IDR that are no pin's are outside every pass. -/
theorem idrBitsOfNoPinAreKept : Obligations.IdrBitsOfNoPinAreKept := fun _ _ _ h hover _ => exec_idr_of_ge h hover

end Sys2Proof.Proofs
end

section
/-! PROOF. What an operation does not depend on (spec 70_reset_and_hazards.md): the five registers that are stored only, as a group,
and the identity. -/

namespace Sys2Proof.Proofs

open Sys2Proof.Machine Sys2Proof.Laws Sys2Proof.Safety

theorem agreeOnResolver_refl (p : Port) : AgreeOnResolver p p := ⟨rfl, rfl, rfl, rfl, rfl, rfl⟩

theorem agreeOnResolver_trans {p q r : Port} (hpq : AgreeOnResolver p q) (hqr : AgreeOnResolver q r) : AgreeOnResolver p r :=
  ⟨hpq.moder.trans hqr.moder, hpq.pupdr.trans hqr.pupdr, hpq.idr.trans hqr.idr, hpq.odr.trans hqr.odr,
    hpq.ovrEn.trans hqr.ovrEn, hpq.ovrVal.trans hqr.ovrVal⟩

theorem agreeOnResolver_put (r : StoredOnly) (v : Word) (p : Port) : AgreeOnResolver p (r.put v p) := by
  cases r <;> exact ⟨rfl, rfl, rfl, rfl, rfl, rfl⟩

/-- Ports that agree on what the resolver reads differ in at most the five words. -/
theorem puts_of_agreeOnResolver {p q : Port} (h : AgreeOnResolver p q) :
    StoredOnly.put .afrh q.afrh (StoredOnly.put .afrl q.afrl (StoredOnly.put .lckr q.lckr
      (StoredOnly.put .ospeedr q.ospeedr (StoredOnly.put .otyper q.otyper p)))) = q := by
  obtain ⟨h1, h2, h3, h4, h5, h6⟩ := h
  cases p
  cases q
  cases h1; cases h2; cases h3; cases h4; cases h5; cases h6
  rfl

/-- `i` does the same from `s` and from `s'`, but for the five words and what it reads back of them. -/
def RunsAlike (i : Instr) (s s' : State) : Prop :=
  (∃ r, exec i s = .refused r ∧ exec i s' = .refused r) ∨
  (∃ t u, exec i s = .next t ∧ exec i s' = .next u ∧
    AgreeOnResolver t.port u.port ∧ t.events = u.events ∧ (readsStoredOnly i = false → t.result = u.result))

theorem RunsAlike.trans {i : Instr} {s s' s'' : State} (h : RunsAlike i s s') (h' : RunsAlike i s' s'') : RunsAlike i s s'' := by
  obtain ⟨r, hs, hs'⟩ | ⟨t, u, hs, hs', hport, hevents, hresult⟩ := h
  · obtain ⟨r', hmid, hs''⟩ | ⟨t', u', hmid, -⟩ := h' <;> rw [hs'] at hmid <;> cases hmid
    exact .inl ⟨r, hs, hs''⟩
  · obtain ⟨r', hmid, -⟩ | ⟨t', u', hmid, hs'', hport', hevents', hresult'⟩ := h' <;> rw [hs'] at hmid <;> cases hmid
    exact .inr ⟨t, u', hs, hs'', agreeOnResolver_trans hport hport', hevents.trans hevents',
      fun hreads => (hresult hreads).trans (hresult' hreads)⟩

/-- R200's law of one register, seen from all but the five. -/
theorem runsAlike_put (i : Instr) (s : State) (r : StoredOnly) (v : Word) (p : Port) :
    RunsAlike i { s with port := p } { s with port := r.put v p } := by
  cases hcontract : withinContract s.pinCount i with
  | false => exact .inl (refused_alike (s := { s with port := p }) _ hcontract)
  | true =>
    obtain ⟨t, u, ht, hu, hstate, hport, hresult, -⟩ := exec_putIn_differsOnlyIn (s := { s with port := p }) r v hcontract
    refine .inr ⟨t, u, ht, hu, ?_, by rw [hstate], fun hreads => (hresult ?_ ?_).symm⟩
    · obtain hport | hport := hport <;> rw [hport]
      · exact agreeOnResolver_refl _
      · exact agreeOnResolver_put r v _
    · rintro rfl
      cases r <;> cases hreads
    · rintro rfl
      cases hreads

theorem lineEvent_withIdentity (s : State) (id : Identity) (p : PinOperand) (q : Port) :
    lineEvent { s with identity := id } p q = withIdentity id (lineEvent s p q) := by
  by_cases h : p.toNat < s.pinCount
  · rw [lineEvent_of_lt h, lineEvent_of_lt (s := { s with identity := id }) h]
    rfl
  · rw [lineEvent_of_ge (Nat.le_of_not_lt h), lineEvent_of_ge (s := { s with identity := id }) (Nat.le_of_not_lt h)]
    rfl

/-- No operation reads or writes the identity (R27, R182). -/
theorem exec_withIdentity (i : Instr) (s : State) (id : Identity) :
    exec i { s with identity := id } = withIdentity id (exec i s) := by
  cases i
  case lineLow p => exact lineEvent_withIdentity s id p _
  case lineHigh p => exact lineEvent_withIdentity s id p _
  case lineRelease p => exact lineEvent_withIdentity s id p _
  all_goals rfl

theorem fetch_withIdentity (s : State) (id : Identity) :
    fetch { s with identity := id } = (fetch s).map fun f => (f.1, { f.2 with identity := id }) := by
  unfold fetch
  cases s.pending with
  | nil => rfl
  | cons r rest => cases hr : requestInstr r <;> simp only [hr] <;> rfl

theorem step_withIdentity (s : State) (id : Identity) : step { s with identity := id } = withIdentity id (step s) := by
  rw [step, fetch_withIdentity, step]
  cases fetch s with
  | error r => rfl
  | ok f => exact exec_withIdentity f.1 f.2 id

theorem run_succ_of_next {M : Host.Core} {s t : M.State} (h : M.step s = .next t) (k : Nat) :
    M.run (k + 1) s = M.run k t := by
  simp only [Host.Core.run, h]

theorem run_succ_of_refused {M : Host.Core} {s : M.State} {r : M.Refusal} (h : M.step s = .refused r) (k : Nat) :
    M.run (k + 1) s = .refused r := by
  simp only [Host.Core.run, h]

/-- Settles O51: the other port is reached by replacing the five words one after the other, and the operation runs alike each time. -/
theorem storedOnlyRegistersAreDecorative : Obligations.StoredOnlyRegistersAreDecorative := by
  intro i s q h
  rw [← puts_of_agreeOnResolver h]
  exact (runsAlike_put i s .otyper q.otyper _).trans <| (runsAlike_put i s .ospeedr q.ospeedr _).trans <|
    (runsAlike_put i s .lckr q.lckr _).trans <| (runsAlike_put i s .afrl q.afrl _).trans (runsAlike_put i s .afrh q.afrh _)

/-- Settles O52, by induction on the number of steps. -/
theorem identityHasNoEffect : Obligations.IdentityHasNoEffect := by
  intro k
  induction k with
  | zero => intro s id; rfl
  | succ k ih =>
    intro s id
    have hother := step_withIdentity s id
    cases hstep : step s with
    | next t =>
      rw [hstep] at hother
      rw [run_succ_of_next (M := core) hstep, run_succ_of_next (M := core) hother]
      exact ih t id
    | fault r => cases r
    | refused r =>
      rw [hstep] at hother
      rw [run_succ_of_refused (M := core) hstep, run_succ_of_refused (M := core) hother]
      rfl

end Sys2Proof.Proofs
end

section
/-! PROOF. The step and the environment's calls (spec 00_scope.md, 20_memory.md): what a call inside the contract of R9 runs, and the
name under which one outside it is refused. -/

namespace Sys2Proof.Proofs

open Sys2Proof.Machine Sys2Proof.Laws Sys2Proof.Safety

/-- A step runs what the oldest pending request invokes. -/
theorem step_of_requestInstr {s : State} {r : Request} {rest : List Request} {i : Instr} (hpending : s.pending = r :: rest)
    (hcall : requestInstr r = .ok i) : step s = exec i { s with pending := rest } :=
  step_of_fetch (fetch_ok hpending hcall)

/-- A step has no meaning where the oldest pending request invokes nothing. -/
theorem step_of_requestInstr_error {s : State} {r : Request} {rest : List Request} {e : Refusal}
    (hpending : s.pending = r :: rest) (hcall : requestInstr r = .error e) : step s = .refused e :=
  step_of_fetch_error (fetch_error hpending hcall)

theorem requestInstr_words {ws : List Word} {i : Instr} (h : decode ws = .ok i) : requestInstr (.words ws) = .ok i := by
  simp only [requestInstr, requestPacket, h]

theorem requestInstr_words_error {ws : List Word} {e : DecodeError} (h : decode ws = .error e) :
    requestInstr (.words ws) = .error (.notAnOperation e) := by
  simp only [requestInstr, requestPacket, h]

theorem busOffset_of_width {addr n : Nat} (h : n ≠ 4) : busOffset addr n = .error (.accessWidth n) := if_pos h

theorem busOffset_of_outside {addr : Nat} (h : 0x400 ≤ addr) : busOffset addr 4 = .error (.outsideWindow addr) := by
  rw [busOffset, if_neg (show ¬ 4 ≠ Config.accessWidth by decide), if_pos (show Config.windowBytes ≤ addr from h)]

theorem requestInstr_memRead_error {addr n : Nat} {e : Refusal} (h : busOffset addr n = .error e) :
    requestInstr (.memRead addr n) = .error e := by
  simp only [requestInstr, requestPacket, h, Except.map]

theorem requestInstr_memWrite_error {addr n : Nat} {v : Word} {e : Refusal} (h : busOffset addr n = .error e) :
    requestInstr (.memWrite addr n v) = .error e := by
  simp only [requestInstr, requestPacket, h, Except.map]

theorem lineValueOf_of_undescribed {l : Int} (h : 1 < l) : lineValueOf l = .error (.lineLevel l) := by
  rw [lineValueOf, if_neg (by omega), if_neg (by omega), if_neg (by omega)]

/-- The levels R140 describes are those up to 1. -/
theorem lineValueOf_of_described {l : Int} (h : l ≤ 1) : ∃ v, lineValueOf l = .ok v := by
  unfold lineValueOf
  split_ifs
  · exact ⟨_, rfl⟩
  · exact ⟨_, rfl⟩
  · exact ⟨_, rfl⟩
  · omega

theorem requestInstr_setLevel_error {pin l : Int} {e : Refusal} (h : lineValueOf l = .error e) :
    requestInstr (.setLevel pin l) = .error e := by
  simp only [requestInstr, requestPacket, h]

/-- A pin index of 0 to 15 is a pin operand's; any other is outside every port (R60, R139). -/
theorem pin_cases (pin : Int) : (∃ p : PinOperand, pin = p.toNat) ∨ pinOperand pin = .error (.configurationError pin) := by
  by_cases h : 0 ≤ pin ∧ pin < 16
  · refine .inl ⟨BitVec.ofNat 4 pin.toNat, ?_⟩
    rw [BitVec.toNat_ofNat]
    omega
  · exact .inr (if_neg h)

theorem requestInstr_setLine_error {pin : Int} {v : LineValue} {e : Refusal} (h : pinOperand pin = .error e) :
    requestInstr (.setLine pin v) = .error e := by
  simp only [requestInstr, requestPacket, linePacket, h, Except.map]

theorem requestInstr_setLine_operand (p : PinOperand) (v : LineValue) :
    requestInstr (.setLine p.toNat v) = .ok (lineInstr v p) := by
  rw [requestInstr_setLine]
  cases v <;> rfl

/-- A line event on a pin at or above N is refused (R139). -/
theorem exec_lineInstr_of_ge {s : State} {p : PinOperand} (h : s.pinCount ≤ p.toNat) (v : LineValue) :
    exec (lineInstr v p) s = .refused (.configurationError p.toNat) := by
  cases v <;> exact lineEvent_of_ge h _

/-- A call on a pin outside `[0, N)` is the configuration error, whether the operand cannot hold the pin or the port lacks it. -/
theorem step_of_setLine_call_outside {s : State} {r : Request} {rest : List Request} {pin : Int} {v : LineValue}
    (hpending : s.pending = r :: rest) (hcall : requestInstr r = requestInstr (.setLine pin v))
    (houtside : pin < 0 ∨ (s.pinCount : Int) ≤ pin) : step s = .refused (.configurationError pin) := by
  obtain ⟨p, rfl⟩ | herror := pin_cases pin
  · rw [step_of_requestInstr hpending (hcall.trans (requestInstr_setLine_operand p v))]
    exact exec_lineInstr_of_ge (s := { s with pending := rest }) (by change s.pinCount ≤ p.toNat; omega) v
  · exact step_of_requestInstr_error hpending (hcall.trans (requestInstr_setLine_error herror))

/-- Every operation inside the contract completes (R121, R158). -/
theorem exec_completes {i : Instr} {s : State} (hcontract : withinContract s.pinCount i = true) :
    ∃ t, exec i s = .next t ∧ SameSides s t := by
  have hnext : ∃ t, exec i s = .next t := by
    by_cases htrigger : isTrigger i = true
    · exact ⟨_, exec_trigger htrigger hcontract⟩
    · obtain ⟨p, es, r, he, -⟩ := exec_nontrigger s (Bool.eq_false_iff.2 htrigger)
      exact ⟨_, he⟩
  obtain ⟨t, ht⟩ := hnext
  exact ⟨t, ht, exec_sides ht⟩

/-- Settles O10: a trigger is a pass and anything else completes, unless it is a line event on a pin the port lacks. -/
theorem everyOperationCompletesInsideTheContract : Obligations.EveryOperationCompletesInsideTheContract :=
  fun _ _ => ⟨exec_completes, exec_outside⟩

/-- Settles O28: the three line events share the check of their pin. -/
theorem linePinAtOrAboveNIsRefused : Obligations.LinePinAtOrAboveNIsRefused :=
  fun _ _ h => ⟨exec_lineInstr_of_ge h .driveLow, exec_lineInstr_of_ge h .driveHigh, exec_lineInstr_of_ge h .release⟩

/-- Settles O6: the request is a packet, and it invokes what the packet decodes to. -/
theorem stepRunsTheDecodedInstruction : Obligations.StepRunsTheDecodedInstruction :=
  fun _ _ _ _ hpending hdecode => step_of_requestInstr hpending (requestInstr_words hdecode)

/-- Settles O7: the packet each call stands for decodes to the operation it names. -/
theorem callsReachTheirOperation : Obligations.CallsReachTheirOperation := by
  intro s rest
  refine ⟨fun addr haddr hpending => ?_, fun addr v haddr hpending => ?_,
    fun p hpending => step_of_requestInstr hpending (requestInstr_setLine p .driveLow),
    fun p hpending => step_of_requestInstr hpending (requestInstr_setLine p .driveHigh),
    fun p hpending => step_of_requestInstr hpending (requestInstr_setLine p .release),
    fun hpending => step_of_requestInstr hpending rfl, fun hpending => step_of_requestInstr hpending rfl,
    fun f hpending => step_of_requestInstr hpending rfl⟩
  · exact ⟨_, readWord_ofNat haddr ▸ decode_readWord _, step_of_requestInstr hpending (requestInstr_memRead haddr)⟩
  · exact ⟨_, writeWord_ofNat haddr ▸ decode_writeWord _ v, step_of_requestInstr hpending (requestInstr_memWrite haddr v)⟩

/-- Settles O9: each check of the contract on the way to a packet answers its own refusal. -/
theorem callsOutsideTheContractAreRefused : Obligations.CallsOutsideTheContractAreRefused := by
  intro s rest
  refine ⟨fun hpending => ?_, fun addr n hn hpending => ?_, fun addr n v hn hpending => ?_, fun addr haddr hpending => ?_,
    fun addr v haddr hpending => ?_, fun p v hp hpending => ?_, fun p l hl hpending => ?_⟩
  · exact step_of_fetch_error (by simp only [fetch, hpending])
  · exact step_of_requestInstr_error hpending (requestInstr_memRead_error (busOffset_of_width hn))
  · exact step_of_requestInstr_error hpending (requestInstr_memWrite_error (busOffset_of_width hn))
  · exact step_of_requestInstr_error hpending (requestInstr_memRead_error (busOffset_of_outside haddr))
  · exact step_of_requestInstr_error hpending (requestInstr_memWrite_error (busOffset_of_outside haddr))
  · exact step_of_setLine_call_outside hpending rfl hp
  · exact step_of_requestInstr_error hpending (requestInstr_setLevel_error (lineValueOf_of_undescribed hl))

/-- Settles O57: a described level makes the call the enumeration form's, whose pin is checked. -/
theorem undecodablePacketsAndIntegerPinsAreRefused : Obligations.UndecodablePacketsAndIntegerPinsAreRefused := by
  intro s rest
  refine ⟨fun ws e hdecode hpending => ?_, fun p l hl hp hpending => ?_⟩
  · exact step_of_requestInstr_error hpending (requestInstr_words_error hdecode)
  · obtain ⟨v, hv⟩ := lineValueOf_of_described hl
    exact step_of_setLine_call_outside hpending (requestInstr_setLevel hv) hp

end Sys2Proof.Proofs
end

section
/-! PROOF. The register file (spec 40_register_access.md): reads, reads after writes, and each write as one pass from its updated
port. -/

namespace Sys2Proof.Proofs

open Sys2Proof.Machine Sys2Proof.Laws Sys2Proof.Safety

/-- The read of a register (R81 to R90). -/
def readInstr (name : RegName) : Instr := readAt (offsetOf name)

theorem exec_readInstr (name : RegName) (s : State) :
    exec (readInstr name) s = .next { s with events := [], result := .value (registerWord s.port name) } := by
  cases name <;> rfl

/-- No pass writes the word of a register other than IDR (R116). -/
theorem registerWord_passed {name : RegName} (hname : name ≠ .idr) (s : State) (p : Port) :
    registerWord (passed s p).port name = registerWord p name := by
  rw [passed_others]
  cases name with
  | idr => exact absurd rfl hname
  | moder | otyper | ospeedr | pupdr | odr | bsrr | lckr | afrl | afrh => rfl

/-- A write that stores `v` in a register is read back, since its pass keeps the register. -/
theorem read_after_write {w : Instr} {name : RegName} {v : Word} (htrigger : isTrigger w = true)
    (hline : linePin w = none) (hname : name ≠ .idr) (hstores : ∀ p, registerWord (updatedPort w p) name = v) (s : State) :
    ∃ t u, exec w s = .next t ∧ exec (readInstr name) t = .next u ∧ u.result = .value v := by
  have hcontract : withinContract s.pinCount w = true := by rw [withinContract, hline]
  refine ⟨_, _, exec_trigger htrigger hcontract, exec_readInstr name _, congrArg Result.value ?_⟩
  rw [registerWord_passed hname, hstores]

/-- A trigger inside the contract leaves what one pass leaves of its updated port. -/
theorem exec_afterPass {i : Instr} {s : State} (htrigger : isTrigger i = true) (hcontract : withinContract s.pinCount i = true) :
    ∃ t, exec i s = .next t ∧ AfterPass s (updatedPort i s.port) t :=
  ⟨_, exec_trigger htrigger hcontract, passed_afterPass _ _⟩

/-- WR_BSRR from the ODR value it leaves (R99). -/
theorem exec_wrBsrr_afterPass (s : State) (v : Word) {odr : Word} (h : bsrrUpdate s.port.odr v = odr) :
    ∃ t, exec (.wrBsrr v) s = .next t ∧ AfterPass s { s.port with odr := odr } t :=
  h ▸ exec_afterPass (i := .wrBsrr v) rfl rfl

/-- SETPIN's data requests a set of bit `k` and no clear (R71). -/
theorem bsrr_setPinData (k : PinOperand) :
    bsrrSet (setPinData k) = BitVec.twoPow 32 k.toNat ∧ bsrrClr (setPinData k) = 0#32 := by
  revert k; decide

/-- CLRPIN's data requests a clear of bit `k` and no set (R71). -/
theorem bsrr_clrPinData (k : PinOperand) :
    bsrrSet (clrPinData k) = 0#32 ∧ bsrrClr (clrPinData k) = BitVec.twoPow 32 k.toNat := by
  revert k; decide

theorem bsrrUpdate_setPinData (odr : Word) (k : PinOperand) :
    bsrrUpdate odr (setPinData k) = odr ||| BitVec.twoPow 32 k.toNat := by
  obtain ⟨hset, hclr⟩ := bsrr_setPinData k
  rw [bsrrUpdate, hset, hclr, BitVec.not_zero, BitVec.and_allOnes]

theorem bsrrUpdate_clrPinData (odr : Word) (k : PinOperand) :
    bsrrUpdate odr (clrPinData k) = odr &&& ~~~BitVec.twoPow 32 k.toNat := by
  obtain ⟨hset, hclr⟩ := bsrr_clrPinData k
  rw [bsrrUpdate, hset, hclr, BitVec.or_zero]

/-- NOPW's data requests nothing (R71). -/
theorem bsrrUpdate_zero (odr : Word) : bsrrUpdate odr 0#32 = odr := by
  have hset : bsrrSet 0#32 = 0#32 := by decide
  have hclr : bsrrClr 0#32 = 0#32 := by decide
  rw [bsrrUpdate, hset, hclr, BitVec.not_zero, BitVec.and_allOnes, BitVec.or_zero]

/-- Settles O11: each row is the read of its register. -/
theorem readsReturnTheStoredWord : Obligations.ReadsReturnTheStoredWord := by
  intro s i v hrow
  simp only [List.mem_cons, List.not_mem_nil, or_false, Prod.mk.injEq] at hrow
  obtain ⟨rfl, rfl⟩ | ⟨rfl, rfl⟩ | ⟨rfl, rfl⟩ | ⟨rfl, rfl⟩ | ⟨rfl, rfl⟩ | ⟨rfl, rfl⟩ | ⟨rfl, rfl⟩ | ⟨rfl, rfl⟩ | ⟨rfl, rfl⟩ |
    ⟨rfl, rfl⟩ := hrow
  · exact exec_readInstr .moder s
  · exact exec_readInstr .otyper s
  · exact exec_readInstr .ospeedr s
  · exact exec_readInstr .pupdr s
  · exact exec_readInstr .idr s
  · exact exec_readInstr .odr s
  · exact exec_readInstr .bsrr s
  · exact exec_readInstr .lckr s
  · exact exec_readInstr .afrl s
  · exact exec_readInstr .afrh s

/-- Settles O12: the offset is none of the ten, so its read is the unknown read. -/
theorem unknownReadReturnsZeroAndReports : Obligations.UnknownReadReturnsZeroAndReports :=
  fun s off hunknown => ⟨readAt_unknown hunknown ▸ decode_readWord off, exec_rdUnknown off s⟩

/-- Settles O20: the offset is none of the ten, so its write is the unknown write. -/
theorem unknownWriteOnlyReports : Obligations.UnknownWriteOnlyReports :=
  fun s off v hunknown => ⟨writeAt_unknown hunknown v ▸ decode_writeWord off v, exec_wrUnknown off v s⟩

/-- Settles O19: the write at IDR's offset completes with the port it found. -/
theorem idrWriteIsDiscarded : Obligations.IdrWriteIsDiscarded :=
  fun s v => ⟨decode_writeWord (offsetOf .idr) v, complete_eq s s.port [] .noValue⟩

/-- Settles O15: each row is a register and the write that stores to it. -/
theorem readAfterWriteReturnsTheWord : Obligations.ReadAfterWriteReturnsTheWord := by
  intro s v w r hrow
  simp only [List.mem_cons, List.not_mem_nil, or_false, Prod.mk.injEq] at hrow
  obtain ⟨rfl, rfl⟩ | ⟨rfl, rfl⟩ | ⟨rfl, rfl⟩ | ⟨rfl, rfl⟩ | ⟨rfl, rfl⟩ | ⟨rfl, rfl⟩ | ⟨rfl, rfl⟩ | ⟨rfl, rfl⟩ := hrow
  · exact read_after_write (name := .moder) rfl rfl nofun (fun _ => rfl) s
  · exact read_after_storedOnly_write .otyper v s
  · exact read_after_storedOnly_write .ospeedr v s
  · exact read_after_write (name := .pupdr) rfl rfl nofun (fun _ => rfl) s
  · exact read_after_write (name := .odr) rfl rfl nofun (fun _ => rfl) s
  · exact read_after_storedOnly_write .lckr v s
  · exact read_after_storedOnly_write .afrl v s
  · exact read_after_storedOnly_write .afrh v s

/-- Settles O16: the three writes are triggers, whatever N is. -/
theorem resolverRegisterWritesResolve : Obligations.ResolverRegisterWritesResolve := fun _ v =>
  ⟨exec_afterPass (i := .wrModer v) rfl rfl, exec_afterPass (i := .wrPupdr v) rfl rfl, exec_afterPass (i := .wrOdr v) rfl rfl⟩

/-- Settles O18: the updated ODR is R99's formula, whose bits are R99's table. -/
theorem bsrrWriteSetsAndClears : Obligations.BsrrWriteSetsAndClears := by
  intro s v
  obtain ⟨t, ht, hpass⟩ := exec_wrBsrr_afterPass s v rfl
  refine ⟨t, bsrrUpdate s.port.odr v, ht, fun k hk => ?_, fun k hk => ?_, hpass⟩
  · rw [bsrrUpdate_getLsbD, if_pos hk]
  · rw [bsrrUpdate_getLsbD, if_neg (Nat.not_lt.2 hk)]

/-- Settles O22: the three abbreviations are writes to BSRR whose data requests one set, one clear and nothing. -/
theorem pseudoOperationsTouchOneBit : Obligations.PseudoOperationsTouchOneBit := fun s k =>
  ⟨exec_wrBsrr_afterPass s _ (bsrrUpdate_setPinData _ k), exec_wrBsrr_afterPass s _ (bsrrUpdate_clrPinData _ k),
    exec_wrBsrr_afterPass s _ (bsrrUpdate_zero _)⟩

end Sys2Proof.Proofs
end

section
/-! PROOF. Which pins a write reaches (spec 40_register_access.md section 4, 70_reset_and_hazards.md section 3): the statements of R93,
R105 and R194, all from what an update leaves of a pin's resolved level. -/

namespace Sys2Proof.Proofs

open Sys2Proof.Machine Sys2Proof.Laws Sys2Proof.Safety

/-- With the override vectors kept, a pin's level is kept once it is kept without an override (R113). -/
theorem resolvedLevel_eq_of_free {p q : Port} {i : Nat} (hen : q.ovrEn = p.ovrEn) (hval : q.ovrVal = p.ovrVal)
    (h : p.ovrEn.getLsbD i = false → resolvedLevel q i = resolvedLevel p i) : resolvedLevel q i = resolvedLevel p i := by
  cases hover : p.ovrEn.getLsbD i with
  | false => exact h hover
  | true => rw [resolvedLevel_of_overridden hover, resolvedLevel_of_overridden (hen ▸ hover), hval]

/-- A new pull changes no level of a pin that is an output or overridden. -/
theorem resolvedLevel_with_pupdr {p : Port} {i : Nat} (v : Word) (h : IsOutput p i ∨ p.ovrEn.getLsbD i = true) :
    resolvedLevel { p with pupdr := v } i = resolvedLevel p i := by
  refine resolvedLevel_eq_of_free rfl rfl fun hover => ?_
  have hout := h.resolve_right (Bool.not_eq_true _ ▸ hover)
  exact (resolvedLevel_of_output (p := { p with pupdr := v }) hover hout).trans (resolvedLevel_of_output hover hout).symm

/-- A new ODR changes no level of a pin that is no output or overridden. -/
theorem resolvedLevel_with_odr {p : Port} {i : Nat} (v : Word) (h : ¬IsOutput p i ∨ p.ovrEn.getLsbD i = true) :
    resolvedLevel { p with odr := v } i = resolvedLevel p i := by
  refine resolvedLevel_eq_of_free rfl rfl fun hover => ?_
  have hout := h.resolve_right (Bool.not_eq_true _ ▸ hover)
  exact (resolvedLevel_of_not_output (p := { p with odr := v }) hover hout).trans (resolvedLevel_of_not_output hover hout).symm

/-- A new mode changes no level of a pin that stays in or out of Output mode or is overridden. -/
theorem resolvedLevel_with_moder {p : Port} {i : Nat} (v : Word)
    (h : (IsOutput p i ↔ IsOutput { p with moder := v } i) ∨ p.ovrEn.getLsbD i = true) :
    resolvedLevel { p with moder := v } i = resolvedLevel p i := by
  refine resolvedLevel_eq_of_free rfl rfl fun hover => ?_
  have hmode := h.resolve_right (Bool.not_eq_true _ ▸ hover)
  by_cases hout : IsOutput p i
  · exact (resolvedLevel_of_output (p := { p with moder := v }) hover (hmode.1 hout)).trans
      (resolvedLevel_of_output hover hout).symm
  · exact (resolvedLevel_of_not_output (p := { p with moder := v }) hover (mt hmode.2 hout)).trans
      (resolvedLevel_of_not_output hover hout).symm

theorem passed_odr_write_hidden {s : State} (hc : Consistent s) (odr : Word) {p : Nat}
    (h : ¬IsOutput s.port p ∨ s.port.ovrEn.getLsbD p = true) :
    (passed s { s.port with odr := odr }).port.idr.getLsbD p = s.port.idr.getLsbD p ∧
      ∀ b, Event.edge p b ∉ (passed s { s.port with odr := odr }).events :=
  passed_pin_unchanged (q := { s.port with odr := odr }) hc rfl (resolvedLevel_with_odr odr h)

theorem passed_pupdr_write_hidden {s : State} (hc : Consistent s) (pupdr : Word) {p : Nat}
    (h : IsOutput s.port p ∨ s.port.ovrEn.getLsbD p = true) :
    (passed s { s.port with pupdr := pupdr }).port.idr.getLsbD p = s.port.idr.getLsbD p ∧
      ∀ b, Event.edge p b ∉ (passed s { s.port with pupdr := pupdr }).events :=
  passed_pin_unchanged (q := { s.port with pupdr := pupdr }) hc rfl (resolvedLevel_with_pupdr pupdr h)

/-- A pull write emits no edge: an Output pin keeps its level, and no other pin has edges (R96). -/
theorem passed_pupdr_write_no_edge {s : State} (hc : Consistent s) (pupdr : Word) (p : Nat) (b : Bool) :
    Event.edge p b ∉ (passed s { s.port with pupdr := pupdr }).events := by
  intro hedge
  obtain ⟨-, hout, -⟩ := (edge_mem_passed _ _ _ _).1 hedge
  exact (passed_pupdr_write_hidden hc pupdr (.inl hout)).2 b hedge

/-- Settles O23: a pin a write cannot change is one whose level its update leaves. -/
theorem consistentWritesReachOnlyTheirPins : Obligations.ConsistentWritesReachOnlyTheirPins := by
  intro s v hc
  refine ⟨fun i hi => ?_, ?_, fun i hi => ?_, ?_⟩
  · simp only [List.mem_cons, List.not_mem_nil, or_false] at hi
    obtain rfl | rfl | rfl | rfl | rfl := hi
    · exact ⟨_, rfl, passed_put_of_consistent .otyper v hc⟩
    · exact ⟨_, rfl, passed_put_of_consistent .ospeedr v hc⟩
    · exact ⟨_, rfl, passed_put_of_consistent .lckr v hc⟩
    · exact ⟨_, rfl, passed_put_of_consistent .afrl v hc⟩
    · exact ⟨_, rfl, passed_put_of_consistent .afrh v hc⟩
  · exact ⟨_, exec_trigger rfl rfl, passed_pupdr_write_no_edge hc v, fun p h => (passed_pupdr_write_hidden hc v h).1⟩
  · simp only [List.mem_cons, List.not_mem_nil, or_false] at hi
    obtain rfl | rfl := hi
    · exact ⟨_, exec_trigger rfl rfl, fun p => passed_odr_write_hidden hc v⟩
    · exact ⟨_, exec_trigger rfl rfl, fun p => passed_odr_write_hidden hc (bsrrUpdate s.port.odr v)⟩
  · refine ⟨_, exec_trigger rfl rfl, fun p h => passed_pin_unchanged hc rfl (resolvedLevel_with_moder v ?_)⟩
    rwa [passed_isOutput] at h

/-- Settles O24: an edge needs an Output pin whose level is not its old IDR bit; without an override the level is the ODR bit, and
with one it is what a consistent port already shows. -/
theorem modeSwitchEdges : Obligations.ModeSwitchEdges := by
  intro s v i hi
  refine ⟨_, exec_trigger rfl rfl, fun hout hover b => ?_, fun hout b hedge => ?_, fun hc hover b => ?_⟩
  · have hlevel : resolvedLevel { s.port with moder := v } i = s.port.odr.getLsbD i := resolvedLevel_of_output hover hout
    rw [edge_mem_passed, updatedPort, hlevel]
    constructor
    · rintro ⟨-, -, rfl, hne⟩
      exact ⟨rfl, hne⟩
    · rintro ⟨rfl, hne⟩
      exact ⟨hi, hout, rfl, hne⟩
  · obtain ⟨-, hyes, -⟩ := (edge_mem_passed _ _ _ _).1 hedge
    exact hout hyes
  · exact (passed_pin_unchanged (q := { s.port with moder := v }) hc rfl (resolvedLevel_with_moder v (.inr hover))).2 b

/-- After a mode write a free pin in Output mode has its ODR bit. -/
theorem passed_moder_write_output {s : State} {i : Nat} {m : Word} (hi : i < s.pinCount)
    (hover : s.port.ovrEn.getLsbD i = false) (hm : m.extractLsb' (2 * i) 2 = 1#2) :
    (passed s { s.port with moder := m }).port.idr.getLsbD i = s.port.odr.getLsbD i := by
  rw [passed_idr, if_pos hi]
  exact resolvedLevel_of_output (p := { s.port with moder := m }) hover hm

/-- After a mode write a free pin outside Output mode has its pull-up. -/
theorem passed_moder_write_pull {s : State} {i : Nat} {m : Word} (hi : i < s.pinCount)
    (hover : s.port.ovrEn.getLsbD i = false) (hm : m.extractLsb' (2 * i) 2 ≠ 1#2) :
    (passed s { s.port with moder := m }).port.idr.getLsbD i = decide (s.port.pupdr.extractLsb' (2 * i) 2 = 1#2) := by
  rw [passed_idr, if_pos hi]
  exact resolvedLevel_of_not_output (p := { s.port with moder := m }) hover hm

/-- Settles O47: the write leaves the pin's level, and the mode write that follows gives the level the hidden register asks for. -/
theorem requestedLevelAndPullAreHidden : Obligations.RequestedLevelAndPullAreHidden := by
  intro s v m i hc hi hover
  refine ⟨fun hout => ?_, fun hout => ?_⟩
  · obtain ⟨hidr, hedge⟩ := passed_odr_write_hidden hc v (.inl hout)
    refine ⟨_, _, exec_trigger rfl rfl, hidr, hedge, exec_trigger rfl rfl, fun hm => ?_⟩
    refine (passed_moder_write_output (s := passed s { s.port with odr := v }) hi ?_ hm).trans ?_
    · rwa [passed_ovrEn]
    · rw [passed_others]
  · obtain ⟨hidr, hedge⟩ := passed_pupdr_write_hidden hc v (.inl hout)
    refine ⟨_, _, exec_trigger rfl rfl, hidr, hedge, exec_trigger rfl rfl, fun hm => ?_⟩
    refine (passed_moder_write_pull (s := passed s { s.port with pupdr := v }) hi ?_ hm).trans ?_
    · rwa [passed_ovrEn]
    · rw [passed_others]

end Sys2Proof.Proofs
end

section
/-! PROOF. Releasing a pin (spec 43_external_line.md): the statement of R138. -/

namespace Sys2Proof.Proofs

open Sys2Proof.Machine Sys2Proof.Laws Sys2Proof.Safety

/-- A released pin is not overridden, whatever it was driven to (R138). -/
theorem release_free (q : Port) (p : PinOperand) : (release q p.toNat).ovrEn.getLsbD p.toNat = false :=
  setBit_getLsbD_pin _ p false

theorem resolvedLevel_release_output {q : Port} {p : PinOperand} (hout : IsOutput q p.toNat) :
    resolvedLevel (release q p.toNat) p.toNat = q.odr.getLsbD p.toNat :=
  resolvedLevel_of_output (release_free q p) hout

theorem resolvedLevel_release_pull {q : Port} {p : PinOperand} (hout : ¬IsOutput q p.toNat) :
    resolvedLevel (release q p.toNat) p.toNat = decide (q.pupdr.extractLsb' (2 * p.toNat) 2 = 1#2) :=
  resolvedLevel_of_not_output (release_free q p) hout

/-- The released pin's edge: an Output pin falls back to its ODR bit. -/
theorem edge_mem_passed_release {s : State} {p : PinOperand} (h : p.toNat < s.pinCount) (b : Bool) :
    Event.edge p.toNat b ∈ (passed s (release s.port p.toNat)).events ↔ b = s.port.odr.getLsbD p.toNat ∧
      IsOutput s.port p.toNat ∧ s.port.odr.getLsbD p.toNat ≠ s.port.idr.getLsbD p.toNat := by
  rw [edge_mem_passed]
  constructor
  · rintro ⟨-, hout, hb, hne⟩
    rw [resolvedLevel_release_output (q := s.port) hout] at hb
    exact ⟨hb, hout, hb ▸ hne⟩
  · rintro ⟨hb, hout, hne⟩
    exact ⟨h, hout, hb.trans (resolvedLevel_release_output hout).symm, hb ▸ hne⟩

/-- Settles O27: the event clears the pin's `ovr_en` bit and runs a pass, which finds the pin free. -/
theorem lineReleaseFallsBack : Obligations.LineReleaseFallsBack := by
  intro s p h
  refine ⟨lineSel_word .release p ▸ decode_lineSel .release p, _, release s.port p.toNat, exec_line rfl h, rfl,
    fun j hj => setBit_getLsbD_of_lt hj _ _ _, passed_afterPass _ _, fun hout => ?_, fun hout => ?_, fun hconflict => ?_,
    edge_mem_passed_release h⟩
  · rw [passed_idr, if_pos h]
    exact resolvedLevel_release_output hout
  · rw [passed_idr, if_pos h]
    exact resolvedLevel_release_pull hout
  · obtain ⟨-, -, hover⟩ := (conflict_mem_passed _ _ _).1 hconflict
    exact absurd hover (Bool.eq_false_iff.1 (release_free s.port p))

end Sys2Proof.Proofs
end

section
/-! PROOF. Reset and the snapshot (spec 70_reset_and_hazards.md, 44_snapshot_codec.md): what a reset port's passes find, and what
SAVE and RESTORE carry, the stale IDR among it. -/

namespace Sys2Proof.Proofs

open Sys2Proof.Machine Sys2Proof.Laws Sys2Proof.Safety

/-- A pass from a consistent port with no override emits nothing: there is no edge and no conflict. -/
theorem passed_events_nil {s : State} {p : Port} (hlevels : ∀ i, i < s.pinCount → p.idr.getLsbD i = resolvedLevel p i)
    (hen : p.ovrEn = 0#16) : (passed s p).events = [] := by
  refine List.eq_nil_iff_forall_not_mem.2 fun e he => ?_
  obtain ⟨i, hi, ⟨rfl, -, hover⟩ | ⟨rfl, -, hne⟩⟩ := (mem_resolvePass _ _ _).1 he
  · rw [hen, BitVec.getLsbD_zero] at hover
    cases hover
  · exact hne (hlevels i hi).symm

/-- A pass right after reset, whatever the modes, leaves the port and emits nothing (R184, R191). -/
theorem passed_reset_port (s : State) (v : Word) :
    (passed s { Port.zero with moder := v }).port = { Port.zero with moder := v } ∧
      (passed s { Port.zero with moder := v }).events = [] := by
  have hlevels : ∀ i, i < s.pinCount →
      ({ Port.zero with moder := v } : Port).idr.getLsbD i = resolvedLevel { Port.zero with moder := v } i := by
    intro i _
    rw [resolvedLevel_undriven rfl rfl rfl]
    exact BitVec.getLsbD_zero
  exact ⟨(resolvePass_consistent hlevels).1, passed_events_nil hlevels rfl⟩

/-- NOPW starts its pass from the port it finds (R71). -/
theorem exec_nopw (s : State) : exec nopw s = .next (passed s s.port) := by
  have hport : updatedPort nopw s.port = s.port := by rw [nopw, updatedPort, bsrrUpdate_zero]
  rw [exec_trigger (i := nopw) rfl rfl, hport]

theorem exec_save (s : State) :
    exec .save s = .next { s with events := [], result := .snapshot (snapshotOf s.port) } := rfl

/-- A mask word that has no bit from `n` on is the zero-extension of its low bits (R145, D13). -/
theorem extended_lowBits_eq_iff {n : Nat} (hn : n ≤ 16) (f : Word) :
    (lowBits n f).setWidth 32 = f ↔ ∀ j, n ≤ j → f.getLsbD j = false := by
  constructor
  · intro h j hj
    rw [← h, extended_getLsbD, lowBits_getLsbD, decide_eq_false (Nat.not_lt.2 hj), Bool.and_false, Bool.false_and]
  · intro h
    refine BitVec.eq_of_getLsbD_eq fun j _ => ?_
    rw [extended_getLsbD, lowBits_getLsbD]
    by_cases hj : j < n
    · rw [decide_eq_true hj, decide_eq_true (Nat.lt_of_lt_of_le hj hn), Bool.true_and, Bool.true_and]
    · rw [h j (Nat.le_of_not_lt hj), Bool.and_false]

/-- A vector of `n` bits is the low bits of its zero-extension (R145, D12). -/
theorem lowBits_extended {n : Nat} {v : BitVec 16} (h : BitsBelow n v) : lowBits n (v.setWidth 32) = v := by
  refine BitVec.eq_of_getLsbD_eq fun j hj => ?_
  rw [lowBits_getLsbD, extended_getLsbD, decide_eq_true hj, Bool.true_and]
  by_cases hn : j < n
  · rw [decide_eq_true hn, Bool.true_and]
  · rw [h j hj (Nat.le_of_not_lt hn), Bool.and_false]

/-- Restoring what was saved (R149). -/
theorem portOf_snapshotOf {n : Nat} {p : Port} (hen : BitsBelow n p.ovrEn) (hval : BitsBelow n p.ovrVal) :
    portOf n (snapshotOf p) = p := by
  rw [portOf, snapshotOf, lowBits_extended hen, lowBits_extended hval]

/-- Saving what was restored (R149). -/
theorem snapshotOf_portOf_eq_iff {n : Nat} (hn : n ≤ 16) (f : Snapshot) :
    snapshotOf (portOf n f) = f ↔ ∀ j, n ≤ j → f.f9.getLsbD j = false ∧ f.f10.getLsbD j = false := by
  have hmasks : snapshotOf (portOf n f) = { f with f9 := (lowBits n f.f9).setWidth 32, f10 := (lowBits n f.f10).setWidth 32 } :=
    rfl
  have hfields : snapshotOf (portOf n f) = f ↔ (lowBits n f.f9).setWidth 32 = f.f9 ∧ (lowBits n f.f10).setWidth 32 = f.f10 := by
    rw [hmasks]
    constructor
    · intro h
      exact ⟨congrArg Snapshot.f9 h, congrArg Snapshot.f10 h⟩
    · rintro ⟨h9, h10⟩
      rw [h9, h10]
  rw [hfields, extended_lowBits_eq_iff hn, extended_lowBits_eq_iff hn]
  exact ⟨fun h j hj => ⟨h.1 j hj, h.2 j hj⟩, fun h => ⟨fun j hj => (h j hj).1, fun j hj => (h j hj).2⟩⟩

theorem save_restore {s : State} {f : Snapshot} : (∃ t u, exec (.restore f) s = .next t ∧ exec .save t = .next u ∧
    u.result = .snapshot f) ↔ snapshotOf (portOf s.pinCount f) = f := by
  constructor
  · rintro ⟨t, u, ht, hu, hresult⟩
    rw [exec_restore] at ht
    cases ht
    rw [exec_save] at hu
    cases hu
    exact Result.snapshot.inj hresult
  · intro h
    exact ⟨_, _, exec_restore f s, exec_save _, congrArg Result.snapshot h⟩

/-- What the next trigger makes of any IDR it finds, in terms of the port it leaves (R148). -/
theorem exec_trigger_idr {w : Instr} {s : State} (htrigger : isTrigger w = true)
    (hcontract : withinContract s.pinCount w = true) : ∃ u, exec w s = .next u ∧
      (∀ i, i < s.pinCount → u.port.idr.getLsbD i = resolvedLevel u.port i) ∧
      (∀ i, s.pinCount ≤ i → u.port.idr.getLsbD i = s.port.idr.getLsbD i) ∧
      ∀ i b, Event.edge i b ∈ u.events ↔
        i < s.pinCount ∧ IsOutput u.port i ∧ b = resolvedLevel u.port i ∧ b ≠ s.port.idr.getLsbD i := by
  refine ⟨_, exec_trigger htrigger hcontract, passed_consistent s _, fun i hi => ?_, fun i b => ?_⟩
  · rw [passed_idr, if_neg (Nat.not_lt.2 hi), updatedPort_idr]
  · rw [edge_mem_passed, passed_isOutput, passed_resolvedLevel, updatedPort_idr]

theorem exec_nontrigger_keeps_port {w : Instr} (s : State) (htrigger : isTrigger w = false)
    (hover : overwritesAll w = false) : ∃ u, exec w s = .next u ∧ u.port = s.port := by
  obtain ⟨p, es, r, he, hp, -⟩ := exec_nontrigger s htrigger
  exact ⟨_, he, hp hover⟩

/-- Settles O32: right after reset nothing is driven, requested or pulled, so no mode makes a pass find work. -/
theorem resetNeedsNoPassAndForgetsDrives : Obligations.ResetNeedsNoPassAndForgetsDrives := by
  intro s
  obtain ⟨hport, hevents⟩ := passed_reset_port { s with port := Port.zero, events := [], result := .noValue } 0#32
  refine ⟨_, _, exec_reset s, exec_nopw _, hport, hevents, fun v => ?_⟩
  obtain ⟨hport, hevents⟩ := passed_reset_port { s with port := Port.zero, events := [], result := .noValue } v
  exact ⟨_, exec_trigger rfl rfl, hevents, congrArg Port.idr hport⟩

/-- Settles O33: the snapshot is the port's items, the vectors zero-extended. -/
theorem saveReturnsTheElevenItems : Obligations.SaveReturnsTheElevenItems :=
  ⟨decode_encode (i := .save) rfl, fun s => ⟨_, exec_save s, rfl, rfl, rfl, rfl, rfl, rfl, rfl, rfl, rfl,
    extended_getLsbD _, extended_getLsbD _⟩⟩

/-- Settles O34: the port is the snapshot's words, and of its masks the bits below N. -/
theorem restoreOverwritesEverything : Obligations.RestoreOverwritesEverything := by
  intro s f
  refine ⟨decode_encode (i := .restore f) rfl, _, exec_restore f s, rfl, rfl, rfl, rfl, rfl, rfl, rfl, rfl, rfl,
    fun j hj => ?_, fun j hj => ?_, rfl, rfl, ⟨rfl, rfl, rfl⟩⟩
  · rw [portOf_ovrEn, lowBits_getLsbD, decide_eq_true hj, Bool.true_and]
  · rw [portOf_ovrVal, lowBits_getLsbD, decide_eq_true hj, Bool.true_and]

/-- Settles O35: saving and restoring are inverse but for the mask bits from N on, which a restore ignores. -/
theorem snapshotRoundTrip : Obligations.SnapshotRoundTrip := by
  refine ⟨fun s hvectors => ?_, fun s f hn => save_restore.trans (snapshotOf_portOf_eq_iff hn f)⟩
  obtain ⟨hen, hval⟩ := (vectorsInRange_iff s).1 hvectors
  refine ⟨_, _, exec_save s, rfl, fun r hr => ⟨_, exec_restore _ r, ?_⟩⟩
  exact hr ▸ portOf_snapshotOf hen hval

/-- Settles O36: RESTORE leaves the persisted word in IDR; a trigger resolves it, and the rest but RESET and RESTORE keep it. -/
theorem staleIdrLastsUntilTheNextTrigger : Obligations.StaleIdrLastsUntilTheNextTrigger := by
  intro s f
  refine ⟨_, exec_restore f s, rfl, fun w htrigger hcontract => exec_trigger_idr htrigger hcontract, fun w htrigger hover => ?_⟩
  obtain ⟨u, hu, hport⟩ := exec_nontrigger_keeps_port _ htrigger hover
  exact ⟨u, hu, congrArg Port.idr hport⟩

end Sys2Proof.Proofs
end
